-- ==== Sys2Proof/Word.lean ====
section
/-! DEFINITION. The word types of the block: every value is unsigned (00_scope.md R14), bit 0 is the least
significant bit (R13). -/

namespace Sys2Proof

/-- One 64-bit word of a memory, a DATA word or response data (00_scope.md R9, 30_encoding.md R72, R73). -/
abbrev Word := BitVec 64

/-- One byte of the light store's byte view (20_memory.md R53). -/
abbrev Byte := BitVec 8

/-- The 32-bit command word (30_encoding.md R71). -/
abbrev CmdWord := BitVec 32

/-- The 16-bit index operand (30_encoding.md R75). -/
abbrev Index := BitVec 16

end Sys2Proof
end

