-- ==== Sys2Proof/Config.lean ====
section
/-! DEFINITION. The fixed constants (00_scope.md R9) and the implementation parameters (R10, R11) of a block.
Nothing in the block is nondeterministic once the parameters are fixed (R7), so there is no free value here. -/

namespace Sys2Proof

namespace Config

/-- `N_ELEM`: elements per array. -/
abbrev nElem : Nat := 4096
/-- `WORD_BITS`. -/
abbrev wordBits : Nat := 64
/-- `BPV_MIN`. -/
abbrev bpvMin : Nat := 4
/-- `BPV_MAX`. -/
abbrev bpvMax : Nat := 13
/-- `BPV_DIRECT`. -/
abbrev bpvDirect : Nat := 13
/-- `WS_DEPTH`: words of the Word Store. -/
abbrev wsDepth : Nat := 832
/-- `PAL_DEPTH`: entries of the palette table. -/
abbrev palDepth : Nat := 256
/-- `LS_DEPTH`: words of the light store. -/
abbrev lsDepth : Nat := 256

end Config

/-- The values of `LIGHT_BYTE_ORDER` (00_scope.md R11). -/
inductive ByteOrder where
  | little
  | big
  deriving DecidableEq, Repr

/-- The parameters of a configured block, fixed for its life (10_state.md R32). -/
structure Params where
  /-- `HAS_LIGHT` (00_scope.md R10). -/
  hasLight : Bool
  /-- `LIGHT_BYTE_ORDER`, meaningful only when `hasLight` (R11). -/
  lightByteOrder : ByteOrder
  deriving DecidableEq, Repr

/-- The parameters `State.reset` is built with. DESIGN CHOICE (log 1): R10 fixes no value of `HAS_LIGHT`; `LITTLE` is
R11's value for the block. -/
def Params.standard : Params := ⟨true, .little⟩

/-- The identification string of a configured block (00_scope.md R2); the block has no register that holds it. -/
def Params.identification (p : Params) : String := if p.hasLight then "BSC1-L" else "BSC1"

end Sys2Proof
end

