-- ==== Sys2Proof/Syntax.lean ====
section
/-! DEFINITION. The commands of the block, one constructor per row of spec/opcode_table.json, and the pairs the port
carries (30_encoding.md R70). -/

namespace Sys2Proof

/-- The fourteen commands of 30_encoding.md R74 with their operands. A command that ignores DATA (R72) has no field for
it (log 15). -/
inductive Instr where
  /-- `GET_RAW i` (40_codec.md R94). -/
  | getRaw (idx : Index)
  /-- `SET_RAW i, v` (40_codec.md R95). -/
  | setRaw (idx : Index) (data : Word)
  /-- `GET i` (41_palette.md R111). -/
  | get (idx : Index)
  /-- `LIGHT_GET i` (42_light.md R131). -/
  | lightGet (idx : Index)
  /-- `WORD_READ w` (43_config_host.md R150). -/
  | wordRead (idx : Index)
  /-- `WORD_WRITE w, d` (43_config_host.md R151). -/
  | wordWrite (idx : Index) (data : Word)
  /-- `PAL_READ p` (41_palette.md R112). -/
  | palRead (idx : Index)
  /-- `PAL_WRITE p, d` (41_palette.md R113). -/
  | palWrite (idx : Index) (data : Word)
  /-- `CFG_READ` (43_config_host.md R152). -/
  | cfgRead
  /-- `CFG_WRITE d` (43_config_host.md R154). -/
  | cfgWrite (data : Word)
  /-- `INIT_EMPTY` (43_config_host.md R155). -/
  | initEmpty
  /-- `STATUS_READ` (43_config_host.md R156). -/
  | statusRead
  /-- `LWORD_READ w` (42_light.md R132). -/
  | lwordRead (idx : Index)
  /-- `LWORD_WRITE w, d` (42_light.md R133). -/
  | lwordWrite (idx : Index) (data : Word)
  deriving DecidableEq, Repr

/-- A command as the port carries it: the pair (`CMD`, `DATA`) (30_encoding.md R70). -/
structure Command where
  word : CmdWord
  data : Word
  deriving DecidableEq, Repr

/-- The status codes a response can carry (60_exceptions.md R180); codes 8 to 15 are never produced. -/
inductive StatusCode where
  | ok
  | indexOutOfRange
  | invalidRawValue
  | unmappedRawCode
  | invalidConfig
  | illegalCommand
  | addrOutOfRange
  | halted
  deriving DecidableEq, Repr

/-- A response: the pair (`RSP_STATUS`, `RSP_DATA`) (30_encoding.md R70, R73). -/
structure Response where
  status : StatusCode
  data : Word
  deriving DecidableEq, Repr

end Sys2Proof
end

