-- ==== Sys2Proof/WellFormed.lean ====
section
/-! DEFINITION. Which commands exist on a block. Every operand value fits its field by its type; whether an index is in
range is checked when the command runs (60_exceptions.md R186). -/

namespace Sys2Proof

/-- The commands that exist only when `HAS_LIGHT = true` (30_encoding.md R74, R78). -/
def Instr.needsLight : Instr → Bool
  | .lightGet _ | .lwordRead _ | .lwordWrite _ _ => true
  | .getRaw _ | .setRaw _ _ | .get _ | .wordRead _ | .wordWrite _ _ | .palRead _ | .palWrite _ _
  | .cfgRead | .cfgWrite _ | .initEmpty | .statusRead => false

/-- A command exists on a block with this `HAS_LIGHT` (00_scope.md R10). -/
def Instr.wellFormed (hasLight : Bool) (i : Instr) : Bool := !i.needsLight || hasLight

end Sys2Proof
end

