-- ==== Sys2Proof/Decode.lean ====
section
/-! DEFINITION. Decoding a command (30_encoding.md R71-R78), total on any pair of a command word and a data word, and
the encoder (R81). Decoding depends on `CMD` and `HAS_LIGHT` only (R80); DATA is carried along by the commands that use
it (R72). -/

namespace Sys2Proof

/-- `OP`, bits 31:28 (30_encoding.md R71). -/
def opField (w : CmdWord) : BitVec 4 := w.extractLsb' 28 4

/-- `RSV`, bits 27:16. -/
def rsvField (w : CmdWord) : BitVec 12 := w.extractLsb' 16 12

/-- `IDX`, bits 15:0. -/
def idxField (w : CmdWord) : Index := w.extractLsb' 0 16

/-- Why a command word is illegal: one name for each clause of 30_encoding.md R78. All answer `ILLEGAL_COMMAND`
(log 17). -/
inductive Illegal where
  /-- `OP = 0x0` or `OP = 0xF`. -/
  | reservedOpcode
  /-- `RSV != 0`. -/
  | reservedBits
  /-- `OP` in 0x9 to 0xC and `IDX != 0`. -/
  | operandNotZero
  /-- `OP` is 0x4, 0xD or 0xE and `HAS_LIGHT = false`. -/
  | noLight
  deriving DecidableEq, Repr

/-- A command that takes no index operand (30_encoding.md R75). -/
def decodeNoOperand (w : CmdWord) (i : Instr) : Except Illegal Instr :=
  if idxField w = 0 then .ok i else .error .operandNotZero

/-- A command that exists only with the light store (30_encoding.md R74). -/
def decodeLight (hasLight : Bool) (i : Instr) : Except Illegal Instr :=
  if hasLight then .ok i else .error .noLight

/-- The opcode map of 30_encoding.md R74. -/
def decodeOpcode (hasLight : Bool) (c : Command) : Except Illegal Instr :=
  match (opField c.word).toNat with
  | 0x1 => .ok (.getRaw (idxField c.word))
  | 0x2 => .ok (.setRaw (idxField c.word) c.data)
  | 0x3 => .ok (.get (idxField c.word))
  | 0x4 => decodeLight hasLight (.lightGet (idxField c.word))
  | 0x5 => .ok (.wordRead (idxField c.word))
  | 0x6 => .ok (.wordWrite (idxField c.word) c.data)
  | 0x7 => .ok (.palRead (idxField c.word))
  | 0x8 => .ok (.palWrite (idxField c.word) c.data)
  | 0x9 => decodeNoOperand c.word .cfgRead
  | 0xA => decodeNoOperand c.word (.cfgWrite c.data)
  | 0xB => decodeNoOperand c.word .initEmpty
  | 0xC => decodeNoOperand c.word .statusRead
  | 0xD => decodeLight hasLight (.lwordRead (idxField c.word))
  | 0xE => decodeLight hasLight (.lwordWrite (idxField c.word) c.data)
  | _ => .error .reservedOpcode

/-- Decoding a command on a block with this `HAS_LIGHT` (30_encoding.md R78, R80). -/
def decode (hasLight : Bool) (c : Command) : Except Illegal Instr :=
  if rsvField c.word = 0 then decodeOpcode hasLight c else .error .reservedBits

/-- The opcode of a command (30_encoding.md R74). -/
def Instr.opcode : Instr → BitVec 4
  | .getRaw _ => 0x1#4
  | .setRaw _ _ => 0x2#4
  | .get _ => 0x3#4
  | .lightGet _ => 0x4#4
  | .wordRead _ => 0x5#4
  | .wordWrite _ _ => 0x6#4
  | .palRead _ => 0x7#4
  | .palWrite _ _ => 0x8#4
  | .cfgRead => 0x9#4
  | .cfgWrite _ => 0xA#4
  | .initEmpty => 0xB#4
  | .statusRead => 0xC#4
  | .lwordRead _ => 0xD#4
  | .lwordWrite _ _ => 0xE#4

/-- The `IDX` field of a command; 0 for the commands that take none (30_encoding.md R75). -/
def Instr.index : Instr → Index
  | .getRaw i | .setRaw i _ | .get i | .lightGet i | .wordRead i | .wordWrite i _ | .palRead i | .palWrite i _
  | .lwordRead i | .lwordWrite i _ => i
  | .cfgRead | .cfgWrite _ | .initEmpty | .statusRead => 0#16

/-- The DATA word of a command; the assembler writes 0 for a command that ignores it (30_encoding.md R81). -/
def Instr.operand : Instr → Word
  | .setRaw _ d | .wordWrite _ d | .palWrite _ d | .cfgWrite d | .lwordWrite _ d => d
  | .getRaw _ | .get _ | .lightGet _ | .wordRead _ | .palRead _ | .cfgRead | .initEmpty | .statusRead
  | .lwordRead _ => 0#64

/-- A command word from its fields, `oooo rrrr rrrr rrrr iiii iiii iiii iiii` with `RSV = 0` (30_encoding.md R71). -/
def commandWord (op : BitVec 4) (idx : Index) : CmdWord := op.setWidth 32 <<< 28 ||| idx.setWidth 32

/-- The words of a command (30_encoding.md R81). -/
def encode (i : Instr) : Command := ⟨commandWord i.opcode i.index, i.operand⟩

/-- The pair (`CMD`, `DATA`) whose bits, numbered from bit 0 of the command word on, are the low `nbits` bits of `w`
(log 21). -/
def commandOfBits (nbits w : Nat) : Command :=
  ⟨BitVec.ofNat 32 (w % 2 ^ nbits), BitVec.ofNat 64 (w % 2 ^ nbits / 2 ^ 32)⟩

/-- The instruction the decoder reads from a word of the opcode table, on the block `State.reset` is of. -/
def decodeTableWord (nbits w : Nat) : Option Instr :=
  (decode Params.standard.hasLight (commandOfBits nbits w)).toOption

end Sys2Proof
end

