-- ==== Sys2Proof/Machine/State.lean ====
section
/-! DEFINITION. The state of the block, plain data, and the state after reset (10_state.md, 70_reset_and_hazards.md). -/

namespace Sys2Proof.Machine

/-- Reasons the machine stops. No command reaches one from a state that meets `Inv` (Safety.lean): they exist so that no
value is invented for a word that the spec says does not exist (log 10). Both are safe. -/
inductive Fault where
  /-- Raised by GET_RAW, SET_RAW and GET when CONFIG holds an illegal width that puts the element past `WS[831]`
  (10_state.md R26). Safe. -/
  | wordStoreAddressAbsent
  /-- Raised by GET when CONFIG holds an illegal `PAL_LEN` above 256 and the raw code is past `PAL[255]`
  (10_state.md R27). Safe. -/
  | paletteAddressAbsent
  deriving DecidableEq, Repr

/-- Reasons the model gives no meaning. -/
inductive Refusal where
  /-- An instruction of the table that has no meaning yet; no arm of `exec` answers it any more. Safe. -/
  | notModelled (mnemonic : String)
  /-- Raised by a clock edge at which the host has changed or withdrawn a command it offered and that has not transferred:
  which command the block then executes is not specified (30_encoding.md R86, 93_implementation_defined.md; log 8).
  Safe. -/
  | commandNotHeld
  deriving DecidableEq, Repr

/-- A memory of 64-bit words: (word address, word) pairs, addresses strictly rising, no word equal to `Store.blank`
(log 2). -/
abbrev Store := List (Nat × Word)

/-- What a word that is not listed reads as: the reset contents of `WS`, `PAL` and `LS` (10_state.md R33; log 3). -/
abbrev Store.blank : Word := 0#64

/-- The sticky fields of STATUS (10_state.md R25); its other bits are constants (`statusWord` in Flags.lean; log 13). -/
structure Status where
  /-- `FATAL`. -/
  fatal : Bool
  /-- `FATAL_CODE`. -/
  fatalCode : BitVec 4
  /-- `FATAL_IDX`. -/
  fatalIdx : Index
  deriving DecidableEq, Repr

/-- The command port (10_state.md R30) with the response of the command in progress (30_encoding.md R85). -/
inductive Port where
  /-- READY: no command is outstanding. -/
  | ready
  /-- BUSY: with `some r`, a command is in progress and its response will be `r`; with `none`, the block is not yet ready
  after reset (70_reset_and_hazards.md R212). -/
  | busy (pending : Option Response)
  /-- RESPONDING: `r` is offered and not yet taken. -/
  | responding (r : Response)
  deriving DecidableEq, Repr

/-- What is driven from outside at one rising edge of `clk` (30_encoding.md R84), and the block's own choice of whether
it finishes there. -/
structure Edge where
  rst : Bool
  cmdValid : Bool
  cmdWord : CmdWord
  cmdData : Word
  rspReady : Bool
  /-- The block finishes at this edge what it is busy with: latency is implementation-defined (00_scope.md R12; log 5). -/
  finish : Bool
  deriving DecidableEq, Repr

/-- The state of the block in the transaction-level model of 00_scope.md R7: what 10_state.md R33 lists but for PORT,
which R30 says such a model has no need of. The parameters are no part of it (R32). -/
structure Block where
  /-- CONFIG (10_state.md R23). -/
  config : BitVec 32
  /-- STATUS (R25). -/
  status : Status
  /-- The Word Store `WS` (R26). -/
  ws : Store
  /-- The palette table `PAL` (R27). -/
  pal : Store
  /-- The light store `LS` (R28); nothing is listed when `HAS_LIGHT = false`. -/
  ls : Store
  deriving DecidableEq, Repr

/-- The state of the machine: the block's state (10_state.md R33), its PORT, and below them the model's own fields. -/
structure State extends Block where
  /-- `PORT` (R30). -/
  port : Port
  /-- The parameters (R32): arguments of the spec's `step` and `reset`, as they are of `blockStep` and `Block.reset`; the
  machine carries them here because the host's `step` takes one argument (log 1). -/
  params : Params
  /-- The host and the reset input: what is driven at the clock edges to come, the next first (log 4). -/
  inputs : List Edge
  /-- The command the host offers and must hold until it transfers (30_encoding.md R86; log 9). -/
  offered : Option Command
  /-- The responses the host has taken, the latest first (log 12). -/
  taken : List Response
  deriving DecidableEq, Repr

/-- CONFIG after reset and after INIT_EMPTY: BPV 4, PAL_EN 1, PAL_LEN 1 (10_state.md R23). -/
def configEmpty : BitVec 32 := 0x00010104

/-- `reset(params)` (00_scope.md R7, 10_state.md R33). The parameters show only in the constant bits of STATUS, which are
not stored (log 13). -/
def Block.reset (_params : Params) : Block where
  config := configEmpty
  status := ⟨false, 0#4, 0#16⟩
  ws := []
  pal := []
  ls := []

/-- The machine at reset with the given parameters (70_reset_and_hazards.md R210, R212). -/
def State.resetWith (p : Params) : State where
  toBlock := Block.reset p
  port := .busy none
  params := p
  inputs := []
  offered := none
  taken := []

/-- The machine right after reset (70_reset_and_hazards.md R210). -/
def State.reset : State := State.resetWith Params.standard

end Sys2Proof.Machine
end

