-- ==== Sys2Proof/Machine/Operands.lean ====
section
/-! DEFINITION. Reading operands: CONFIG's fields and images (10_state.md R23, 30_encoding.md R77), masks (00_scope.md
R14) and the byte view of a light-store word (20_memory.md R53). `IDX` and `DATA` are used as unsigned numbers, with no
extension or scaling (30_encoding.md R75, R76). -/

namespace Sys2Proof.Machine

/-- `ones(n) = 2^n - 1` (00_scope.md R14), as a 64-bit mask. -/
def ones (n : Nat) : Word := BitVec.ofNat 64 (2 ^ n - 1)

/-- `BPV`, bits 3:0 of a CONFIG image (10_state.md R23). -/
def cfgBpv {n : Nat} (d : BitVec n) : Nat := (d.extractLsb' 0 4).toNat

/-- `PAL_EN`, bit 8. -/
def cfgPalEn {n : Nat} (d : BitVec n) : Bool := d.getLsbD 8

/-- `PAL_LEN`, bits 24:16. -/
def cfgPalLen {n : Nat} (d : BitVec n) : Nat := (d.extractLsb' 16 9).toNat

/-- The bits of a CONFIG image that belong to a field (43_config_host.md R153). -/
def cfgFieldMask : Word := 0x0000000001FF010F

/-- `CfgLegal(d)` (43_config_host.md R153). -/
def cfgLegal (d : Word) : Bool :=
  if d &&& ~~~cfgFieldMask ≠ 0 then false
  else if cfgBpv d < Config.bpvMin ∨ Config.bpvMax < cfgBpv d then false
  else if cfgPalEn d = false then cfgBpv d = Config.bpvDirect && cfgPalLen d = 0
  else 1 ≤ cfgPalLen d && cfgPalLen d ≤ min (2 ^ cfgBpv d) Config.palDepth

/-- The CONFIG image of `CFG b, e, n` (30_encoding.md R82), as a number. -/
def cfgImage (b e n : Nat) : Nat := b + e <<< 8 + n <<< 16

/-- Byte number `k` of a light-store word (20_memory.md R53). -/
def byteAt (order : ByteOrder) (w : Word) (k : Nat) : Byte :=
  match order with
  | .little => w.extractLsb' (8 * k) 8
  | .big => w.extractLsb' (56 - 8 * k) 8

/-- The nibble of a byte that an index names: low for an even index, high for an odd one (20_memory.md R54). -/
def nibbleOf (byte : Byte) (i : Nat) : Byte :=
  if i % 2 = 0 then byte &&& 0x0F else byte >>> 4

end Sys2Proof.Machine
end

