-- ==== Sys2Proof/Machine/Flags.lean ====
section
/-! DEFINITION. Status: the block has no condition flags (10_state.md R22); what a command reports is its response's
status code (60_exceptions.md R180) and, for a fatal error, STATUS (10_state.md R25). -/

namespace Sys2Proof

/-- `RSP_STATUS` (60_exceptions.md R180). -/
def StatusCode.code : StatusCode → BitVec 4
  | .ok => 0#4
  | .indexOutOfRange => 1#4
  | .invalidRawValue => 2#4
  | .unmappedRawCode => 3#4
  | .invalidConfig => 4#4
  | .illegalCommand => 5#4
  | .addrOutOfRange => 6#4
  | .halted => 7#4

/-- Which status codes are fatal errors (60_exceptions.md R180). -/
def StatusCode.fatal : StatusCode → Bool
  | .invalidRawValue | .unmappedRawCode => true
  | .ok | .indexOutOfRange | .invalidConfig | .illegalCommand | .addrOutOfRange | .halted => false

end Sys2Proof

namespace Sys2Proof.Machine

/-- `LIGHT_BE`: 1 when `HAS_LIGHT` is true and `LIGHT_BYTE_ORDER = BIG` (10_state.md R25). -/
def lightBe (p : Params) : Bool := p.hasLight && p.lightByteOrder == .big

/-- The STATUS register as it is read whole (10_state.md R25). -/
def statusWord (p : Params) (st : Status) : Word :=
  (BitVec.ofBool st.fatal).setWidth 64 ||| st.fatalCode.setWidth 64 <<< 4 ||| st.fatalIdx.setWidth 64 <<< 16 |||
    (BitVec.ofBool p.hasLight).setWidth 64 <<< 32 ||| (BitVec.ofBool (lightBe p)).setWidth 64 <<< 33

end Sys2Proof.Machine
end

