-- ==== Sys2Proof/Machine/Ops.lean ====
section
/-! DEFINITION. The named operations over memories and registers, the response of a command, and raising an error
(00_scope.md R15, 60_exceptions.md). The block has no handler and no return from an error (60_exceptions.md R188, R189):
an error's entry is its response, and reset is the only way out of the halted state. -/

namespace Sys2Proof.Machine

/-- `S[a]`: reading one word of a memory (00_scope.md R15). -/
def Store.read : Store → Nat → Word
  | [], _ => Store.blank
  | (k, v) :: rest, a => if k = a then v else Store.read rest a

/-- `S[a] <- v`: writing one word of a memory, which keeps the canonical form. -/
def Store.write : Store → Nat → Word → Store
  | [], a, v => if v = Store.blank then [] else [(a, v)]
  | (k, u) :: rest, a, v =>
    if a < k then if v = Store.blank then (k, u) :: rest else (a, v) :: (k, u) :: rest
    else if a = k then if v = Store.blank then rest else (a, v) :: rest
    else (k, u) :: Store.write rest a v

/-- A memory whose every word is 0 (43_config_host.md R155). -/
def Store.zeroed : Store := []

/-- The canonical form of a memory of `depth` words (log 2). -/
abbrev Store.wf (depth : Nat) (st : Store) : Prop :=
  st.Pairwise (fun c d => c.1 < d.1) ∧ ∀ c ∈ st, c.1 < depth ∧ c.2 ≠ Store.blank

/-- The three memories are in canonical form, within their depths (20_memory.md R51). -/
abbrev Memory.wf (s : State) : Prop :=
  Store.wf Config.wsDepth s.ws ∧ Store.wf Config.palDepth s.pal ∧ Store.wf Config.lsDepth s.ls

/-- `FLAT(p)`: bit `p` of the Word Store as one bit string (20_memory.md R52). -/
def Store.flat (st : Store) (p : Nat) : Bool := (st.read (p / 64)).getLsbD (p % 64)

/-- `CONFIG.BPV`. -/
def State.bpv (s : State) : Nat := cfgBpv s.config

/-- `CONFIG.PAL_EN`: paletted mode when true, direct mode when false (10_state.md R29). -/
def State.palEn (s : State) : Bool := cfgPalEn s.config

/-- `CONFIG.PAL_LEN`. -/
def State.palLen (s : State) : Nat := cfgPalLen s.config

/-- The halted state (60_exceptions.md R184). -/
def State.halted (s : State) : Bool := s.status.fatal

/-- The word STATUS_READ returns (10_state.md R25). -/
def State.statusReg (s : State) : Word := statusWord s.params s.status

/-- `CONFIG <- v`. -/
def State.setConfig (s : State) (v : BitVec 32) : State := { s with config := v }
/-- The fields of STATUS that a fatal error writes. -/
def State.setStatus (s : State) (v : Status) : State := { s with status := v }
/-- The Word Store after a write. -/
def State.setWs (s : State) (v : Store) : State := { s with ws := v }
/-- The palette table after a write. -/
def State.setPal (s : State) (v : Store) : State := { s with pal := v }
/-- The light store after a write. -/
def State.setLs (s : State) (v : Store) : State := { s with ls := v }
/-- `PORT <- v`. -/
def State.setPort (s : State) (v : Port) : State := { s with port := v }
/-- The edges still to come. -/
def State.setInputs (s : State) (v : List Edge) : State := { s with inputs := v }
/-- The command the host must hold. -/
def State.setOffered (s : State) (v : Option Command) : State := { s with offered := v }
/-- The responses the host has taken. -/
def State.setTaken (s : State) (v : List Response) : State := { s with taken := v }

/-- The state with `(code, data)` as the response of the command in progress: PORT is BUSY until it is offered
(10_state.md R30, 30_encoding.md R85). -/
def State.answered (s : State) (code : StatusCode) (data : Word) : State := s.setPort (.busy (some ⟨code, data⟩))

/-- `respond(code, data)` (00_scope.md R15). -/
def State.respond (s : State) (code : StatusCode) (data : Word) : Host.Outcome State Fault Refusal :=
  .next (s.answered code data)

/-- `raise E` for a non-fatal error: the response `(E, 0)` and no change of state (60_exceptions.md R181). -/
def State.raise (s : State) (code : StatusCode) : Host.Outcome State Fault Refusal := s.respond code 0#64

/-- STATUS after a fatal error: the first one is kept (60_exceptions.md R183). -/
def Status.latch (st : Status) (code : StatusCode) (idx : Index) : Status :=
  if st.fatal = false then ⟨true, code.code, idx⟩ else st

/-- `raise_fatal(code, IDX)` (60_exceptions.md R183): taking a fatal error, the one operation every fatal error goes
through. -/
def State.raiseFatal (s : State) (code : StatusCode) (idx : Index) : Host.Outcome State Fault Refusal :=
  (s.setStatus (s.status.latch code idx)).respond code 0#64

/-- Reset at a clock edge (70_reset_and_hazards.md R210, R213): every element of the block is at its reset value, whatever
was in progress. The parameters, the edges still to come and the responses already taken are not the block's. -/
def State.afterReset (s : State) : State :=
  { State.resetWith s.params with inputs := s.inputs, taken := s.taken }

end Sys2Proof.Machine
end

