-- ==== Sys2Proof/Machine/ConfigHost.lean ====
section
/-! DEFINITION. Configuration and host access: WORD_READ, WORD_WRITE, CFG_READ, CFG_WRITE, INIT_EMPTY, STATUS_READ
(43_config_host.md). -/

namespace Sys2Proof.Machine

/-- WORD_READ (43_config_host.md R150). -/
def execWordRead (idx : Index) (s : State) : Host.Outcome State Fault Refusal :=
  if s.halted then s.raise .halted
  else if Config.wsDepth ≤ idx.toNat then s.raise .addrOutOfRange
  else s.respond .ok (s.ws.read idx.toNat)

/-- WORD_WRITE (43_config_host.md R151). -/
def execWordWrite (idx : Index) (data : Word) (s : State) : Host.Outcome State Fault Refusal :=
  if s.halted then s.raise .halted
  else if Config.wsDepth ≤ idx.toNat then s.raise .addrOutOfRange
  else (s.setWs (s.ws.write idx.toNat data)).respond .ok 0#64

/-- CFG_READ (43_config_host.md R152). -/
def execCfgRead (s : State) : Host.Outcome State Fault Refusal :=
  if s.halted then s.raise .halted
  else s.respond .ok (s.config.setWidth 64)

/-- CFG_WRITE (43_config_host.md R154). -/
def execCfgWrite (data : Word) (s : State) : Host.Outcome State Fault Refusal :=
  if s.halted then s.raise .halted
  else if cfgLegal data = false then s.raise .invalidConfig
  else (s.setConfig (data.setWidth 32)).respond .ok 0#64

/-- INIT_EMPTY (43_config_host.md R155). -/
def execInitEmpty (s : State) : Host.Outcome State Fault Refusal :=
  if s.halted then s.raise .halted
  else (((s.setConfig configEmpty).setWs Store.zeroed).setPal Store.zeroed).respond .ok 0#64

/-- STATUS_READ, the one command that completes while the block is halted (43_config_host.md R156). -/
def execStatusRead (s : State) : Host.Outcome State Fault Refusal :=
  s.respond .ok s.statusReg

end Sys2Proof.Machine
end

