-- ==== Sys2Proof/Machine/Light.lean ====
section
/-! DEFINITION. The Light Array nibble unpacker, LIGHT_GET, and host access to the light store, LWORD_READ and
LWORD_WRITE (42_light.md). The three are illegal on a block without the light store, the first of all checks
(30_encoding.md R78, 60_exceptions.md R186; log 16). -/

namespace Sys2Proof.Machine

/-- `LightGet(i)` (42_light.md R130), zero-extended to 64 bits. -/
def lightNibble (order : ByteOrder) (ls : Store) (i : Nat) : Word :=
  (nibbleOf (byteAt order (ls.read (i / 2 / 8)) (i / 2 % 8)) i).setWidth 64

/-- LIGHT_GET (42_light.md R131). -/
def execLightGet (idx : Index) (s : State) : Host.Outcome State Fault Refusal :=
  if s.params.hasLight = false then s.raise .illegalCommand
  else if s.halted then s.raise .halted
  else if Config.nElem ≤ idx.toNat then s.raise .indexOutOfRange
  else s.respond .ok (lightNibble s.params.lightByteOrder s.ls idx.toNat)

/-- LWORD_READ (42_light.md R132). -/
def execLwordRead (idx : Index) (s : State) : Host.Outcome State Fault Refusal :=
  if s.params.hasLight = false then s.raise .illegalCommand
  else if s.halted then s.raise .halted
  else if Config.lsDepth ≤ idx.toNat then s.raise .addrOutOfRange
  else s.respond .ok (s.ls.read idx.toNat)

/-- LWORD_WRITE (42_light.md R133). -/
def execLwordWrite (idx : Index) (data : Word) (s : State) : Host.Outcome State Fault Refusal :=
  if s.params.hasLight = false then s.raise .illegalCommand
  else if s.halted then s.raise .halted
  else if Config.lsDepth ≤ idx.toNat then s.raise .addrOutOfRange
  else (s.setLs (s.ls.write idx.toNat data)).respond .ok 0#64

end Sys2Proof.Machine
end

