-- ==== Sys2Proof/Machine/Codec.lean ====
section
/-! DEFINITION. The Bit Slice Codec: addressing, GetRaw and SetRaw, and the commands GET_RAW and SET_RAW (40_codec.md). -/

namespace Sys2Proof.Machine

/-- Where an element lies (40_codec.md R90). -/
structure Place where
  start : Nat
  w0 : Nat
  w1 : Nat
  off : Nat
  deriving DecidableEq, Repr

/-- The addressing arithmetic for element `i` at width `b` (40_codec.md R90). -/
def place (b i : Nat) : Place where
  start := b * i
  w0 := b * i / 64
  w1 := (b * i + b - 1) / 64
  off := b * i % 64

/-- The element spans two words (40_codec.md R90). -/
def Place.straddle (p : Place) : Bool := p.w0 != p.w1

/-- `GetRaw(i)` at width `b`, zero-extended to 64 bits (40_codec.md R92). It reads the width and the Word Store only
(R99). -/
def getRaw (b : Nat) (ws : Store) (i : Nat) : Word :=
  let p := place b i
  if p.straddle = false then (ws.read p.w0 >>> p.off) &&& ones b
  else (ws.read p.w0 >>> p.off ||| ws.read p.w1 <<< (64 - p.off)) &&& ones b

/-- `SetRaw(i, v)` at width `b`, defined for `v < 2^b` (40_codec.md R93). -/
def setRaw (b : Nat) (ws : Store) (i : Nat) (v : Word) : Store :=
  let p := place b i
  if p.straddle = false then
    ws.write p.w0 (ws.read p.w0 &&& ~~~(ones b <<< p.off) ||| v <<< p.off)
  else
    let lo := 64 - p.off
    let hi := b - lo
    let ws' := ws.write p.w0 (ws.read p.w0 &&& ones p.off ||| (v &&& ones lo) <<< p.off)
    ws'.write p.w1 (ws'.read p.w1 &&& ~~~ones hi ||| v >>> lo)

/-- The words of element `i` exist: true at every legal width (40_codec.md R91; log 10). -/
def State.elementExists (s : State) (i : Nat) : Bool := (place s.bpv i).w1 < Config.wsDepth

/-- GET_RAW (40_codec.md R94). -/
def execGetRaw (idx : Index) (s : State) : Host.Outcome State Fault Refusal :=
  if s.halted then s.raise .halted
  else if Config.nElem ≤ idx.toNat then s.raise .indexOutOfRange
  else if s.elementExists idx.toNat = false then .fault .wordStoreAddressAbsent
  else s.respond .ok (getRaw s.bpv s.ws idx.toNat)

/-- SET_RAW (40_codec.md R95). -/
def execSetRaw (idx : Index) (data : Word) (s : State) : Host.Outcome State Fault Refusal :=
  if s.halted then s.raise .halted
  else if Config.nElem ≤ idx.toNat then s.raise .indexOutOfRange
  else if 2 ^ s.bpv ≤ data.toNat then s.raiseFatal .invalidRawValue idx
  else if s.elementExists idx.toNat = false then .fault .wordStoreAddressAbsent
  else (s.setWs (setRaw s.bpv s.ws idx.toNat data)).respond .ok 0#64

end Sys2Proof.Machine
end

