-- ==== Sys2Proof/Machine/Palette.lean ====
section
/-! DEFINITION. The Palette Layer's read path, GET, and host access to the palette table, PAL_READ and PAL_WRITE
(41_palette.md). -/

namespace Sys2Proof.Machine

/-- GET (41_palette.md R110, R111). -/
def execGet (idx : Index) (s : State) : Host.Outcome State Fault Refusal :=
  if s.halted then s.raise .halted
  else if Config.nElem ≤ idx.toNat then s.raise .indexOutOfRange
  else if s.elementExists idx.toNat = false then .fault .wordStoreAddressAbsent
  else if s.palEn = false then s.respond .ok (getRaw s.bpv s.ws idx.toNat)
  else if s.palLen ≤ (getRaw s.bpv s.ws idx.toNat).toNat then s.raiseFatal .unmappedRawCode idx
  else if Config.palDepth ≤ (getRaw s.bpv s.ws idx.toNat).toNat then .fault .paletteAddressAbsent
  else s.respond .ok (s.pal.read (getRaw s.bpv s.ws idx.toNat).toNat)

/-- PAL_READ (41_palette.md R112). -/
def execPalRead (idx : Index) (s : State) : Host.Outcome State Fault Refusal :=
  if s.halted then s.raise .halted
  else if Config.palDepth ≤ idx.toNat then s.raise .addrOutOfRange
  else s.respond .ok (s.pal.read idx.toNat)

/-- PAL_WRITE (41_palette.md R113). -/
def execPalWrite (idx : Index) (data : Word) (s : State) : Host.Outcome State Fault Refusal :=
  if s.halted then s.raise .halted
  else if Config.palDepth ≤ idx.toNat then s.raise .addrOutOfRange
  else (s.setPal (s.pal.write idx.toNat data)).respond .ok 0#64

end Sys2Proof.Machine
end

