-- ==== Sys2Proof/Machine/Dispatch.lean ====
section
/-! DEFINITION. Executing a command: one arm per command, one meaning per arm. -/

namespace Sys2Proof.Machine

/-- The effect of a command that the block has accepted and decoded (00_scope.md R7). -/
def exec (i : Instr) (s : State) : Host.Outcome State Fault Refusal :=
  match i with
  | .getRaw idx => Sys2Proof.Machine.execGetRaw idx s
  | .setRaw idx data => Sys2Proof.Machine.execSetRaw idx data s
  | .get idx => Sys2Proof.Machine.execGet idx s
  | .lightGet idx => Sys2Proof.Machine.execLightGet idx s
  | .wordRead idx => Sys2Proof.Machine.execWordRead idx s
  | .wordWrite idx data => Sys2Proof.Machine.execWordWrite idx data s
  | .palRead idx => Sys2Proof.Machine.execPalRead idx s
  | .palWrite idx data => Sys2Proof.Machine.execPalWrite idx data s
  | .cfgRead => Sys2Proof.Machine.execCfgRead s
  | .cfgWrite data => Sys2Proof.Machine.execCfgWrite data s
  | .initEmpty => Sys2Proof.Machine.execInitEmpty s
  | .statusRead => Sys2Proof.Machine.execStatusRead s
  | .lwordRead idx => Sys2Proof.Machine.execLwordRead idx s
  | .lwordWrite idx data => Sys2Proof.Machine.execLwordWrite idx data s

end Sys2Proof.Machine
end

