-- ==== Sys2Proof/Machine/Port.lean ====
section
/-! DEFINITION. The command port at one rising edge of `clk` (30_encoding.md R84-R86, 70_reset_and_hazards.md R211-R213),
and the execution of one command (00_scope.md R7). -/

namespace Sys2Proof.Machine

/-- The block drives `cmd_ready = 1` only while PORT is READY, and never while `rst = 1` (30_encoding.md R85,
70_reset_and_hazards.md R211). R85 does not say that it drives 1 in every READY cycle; that it does is the model's choice
(log 24). -/
def State.cmdReady (s : State) (rst : Bool) : Bool := !rst && s.port == .ready

/-- The response the block drives with `rsp_valid = 1`: none while `rst = 1` (30_encoding.md R85,
70_reset_and_hazards.md R211). -/
def State.rspOffered (s : State) (rst : Bool) : Option Response :=
  match rst, s.port with
  | false, .responding r => some r
  | _, _ => none

/-- `rsp_valid`. -/
def State.rspValid (s : State) (rst : Bool) : Bool := (s.rspOffered rst).isSome

/-- The command the host drives at an edge, when `cmd_valid = 1`. -/
def Edge.offer (e : Edge) : Option Command := if e.cmdValid then some ⟨e.cmdWord, e.cmdData⟩ else none

/-- The edge when nothing more is driven from outside: no reset, no command, no response taken, and the block finishes
(log 4). -/
def Edge.idle : Edge := ⟨false, false, 0, 0, false, true⟩

/-- The edge at which the host offers `c` and takes no response. -/
def Edge.ofCommand (c : Command) : Edge := ⟨false, true, c.word, c.data, false, false⟩

/-- One atomic step of the block on an accepted command: it is decoded, and an illegal one completes with
`ILLEGAL_COMMAND` and no other effect (00_scope.md R7, 30_encoding.md R78, 20_memory.md R62). -/
def State.accept (s : State) (c : Command) : Host.Outcome State Fault Refusal :=
  match decode s.params.hasLight c with
  | .ok i => exec i s
  | .error _ => s.raise .illegalCommand

/-- The response a port holds, in progress or offered. -/
def Port.response : Port → Option Response
  | .ready => none
  | .busy pending => pending
  | .responding r => some r

/-- A block with the given parameters and state, ready for a command and with no host. -/
def State.ofBlock (p : Params) (b : Block) : State where
  toBlock := b
  port := .ready
  params := p
  inputs := []
  offered := none
  taken := []

/-- `step(params, state, command) -> (state', response)` (00_scope.md R7, 10_state.md R32): one accepted command as one
atomic step, the parameters its argument and no part of the state. -/
def blockStep (p : Params) (b : Block) (c : Command) : Host.Outcome (Block × Option Response) Fault Refusal :=
  match (State.ofBlock p b).accept c with
  | .next t => .next (t.toBlock, t.port.response)
  | .fault f => .fault f
  | .refused r => .refused r

/-- The host holds what it offered: once it raises `cmd_valid`, it keeps it and the command stable until the transfer
(30_encoding.md R86). -/
def State.held (s : State) (e : Edge) : Bool := s.offered == none || s.offered == e.offer

/-- One rising edge of `clk`. A command transfers when PORT is READY (log 24) and `cmd_valid = 1`; a response transfers when PORT
is RESPONDING and `rsp_ready = 1`; `rst = 1` resets whatever is in progress (30_encoding.md R84, R85,
70_reset_and_hazards.md R211, R213). The command's effects happen at its transfer (log 6). -/
def State.edge (s : State) (e : Edge) : Host.Outcome State Fault Refusal :=
  if e.rst then .next s.afterReset
  else if s.held e = false then .refused .commandNotHeld
  else
    match s.port with
    | .ready =>
      match e.offer with
      | some c => (s.setOffered none).accept c
      | none => .next (s.setOffered none)
    | .busy none => .next ((s.setOffered e.offer).setPort (if e.finish then .ready else .busy none))
    | .busy (some r) => .next ((s.setOffered e.offer).setPort (if e.finish then .responding r else .busy (some r)))
    | .responding r =>
      if e.rspReady then .next (((s.setOffered e.offer).setTaken (r :: s.taken)).setPort .ready)
      else .next (s.setOffered e.offer)

/-- The edge the next step sees. -/
def State.nextEdge (s : State) : Edge := s.inputs.head?.getD Edge.idle

end Sys2Proof.Machine
end

