-- ==== Sys2Proof/Machine/Step.lean ====
section
/-! DEFINITION. One step of the machine is one rising edge of `clk` (30_encoding.md R84). -/

namespace Sys2Proof.Machine

/-- One clock edge with the next of the inputs. -/
def step (s : State) : Host.Outcome State Fault Refusal :=
  (s.setInputs s.inputs.tail).edge s.nextEdge

/-- The state whose next step runs the command with these bits: the port is READY and the host offers it at the next edge
(log 7, log 21). -/
def State.withFetchWord (s : State) (nbits w : Nat) : State :=
  ((s.setPort .ready).setOffered none).setInputs (Edge.ofCommand (commandOfBits nbits w) :: s.inputs)

end Sys2Proof.Machine
end

