-- ==== Sys2Proof/Machine/Assembler.lean ====
section
/-! DEFINITION. The assembler's lines, pseudo-instructions and listing (30_encoding.md R81-R83). It is outside the block:
it makes the commands that a host issues. Text is a list of characters; what R81 leaves open of the lexical form is in
log 19. -/

namespace Sys2Proof.Machine

/-- One source line: the fourteen commands (30_encoding.md R81) and the pseudo-instructions (R82), their operands as
numbers. -/
inductive AsmLine where
  | getRaw (i : Nat)
  | setRaw (i v : Nat)
  | get (i : Nat)
  | lightGet (i : Nat)
  | wordRead (w : Nat)
  | wordWrite (w d : Nat)
  | palRead (p : Nat)
  | palWrite (p d : Nat)
  | cfgRead
  | cfgWrite (d : Nat)
  | initEmpty
  | statusRead
  | lwordRead (w : Nat)
  | lwordWrite (w d : Nat)
  | cfg (b e n : Nat)
  | cfgPaletted (b n : Nat)
  | cfgDirect
  | loadPalette (vs : List Nat)
  | loadWords (w : Nat) (ds : List Nat)
  | nop
  deriving DecidableEq, Repr

/-- An index operand; the assembler refuses a value that does not fit its field (30_encoding.md R81). -/
def asmIndex (i : Nat) : Option Index := if i < 2 ^ 16 then some (BitVec.ofNat 16 i) else none

/-- A data operand. -/
def asmData (d : Nat) : Option Word := if d < 2 ^ 64 then some (BitVec.ofNat 64 d) else none

/-- A command with an index operand. -/
def asmI (f : Index → Instr) (i : Nat) : Option (List Instr) := (asmIndex i).map fun i => [f i]

/-- A command with a data operand. -/
def asmD (f : Word → Instr) (d : Nat) : Option (List Instr) := (asmData d).map fun d => [f d]

/-- A command with an index and a data operand. -/
def asmID (f : Index → Word → Instr) (i d : Nat) : Option (List Instr) :=
  (asmIndex i).bind fun i => (asmData d).map fun d => [f i d]

/-- The same command at successive addresses (30_encoding.md R82). -/
def asmRun (f : Index → Word → Instr) : Nat → List Nat → Option (List Instr)
  | _, [] => some []
  | a, d :: rest => (asmID f a d).bind fun first => (asmRun f (a + 1) rest).map fun more => first ++ more

/-- The commands a line stands for (30_encoding.md R81, R82), or none where the assembler refuses it. The operands of `CFG`
and `CFG_PALETTED` are added as R82 writes them: R81 names no range for them, and that the assembler refuses only an image
of 2^64 or more, not an operand too large for its CONFIG field, is the model's choice (log 23). -/
def AsmLine.expand : AsmLine → Option (List Instr)
  | .getRaw i => asmI .getRaw i
  | .setRaw i v => asmID .setRaw i v
  | .get i => asmI .get i
  | .lightGet i => asmI .lightGet i
  | .wordRead w => asmI .wordRead w
  | .wordWrite w d => asmID .wordWrite w d
  | .palRead p => asmI .palRead p
  | .palWrite p d => asmID .palWrite p d
  | .cfgRead => some [.cfgRead]
  | .cfgWrite d => asmD .cfgWrite d
  | .initEmpty => some [.initEmpty]
  | .statusRead => some [.statusRead]
  | .lwordRead w => asmI .lwordRead w
  | .lwordWrite w d => asmID .lwordWrite w d
  | .cfg b e n => asmD .cfgWrite (cfgImage b e n)
  | .cfgPaletted b n => asmD .cfgWrite (cfgImage b 1 n)
  | .cfgDirect => asmD .cfgWrite (cfgImage 13 0 0)
  | .loadPalette vs => if 0 < vs.length ∧ vs.length ≤ 256 then asmRun .palWrite 0 vs else none
  | .loadWords w ds => if 0 < ds.length then asmRun .wordWrite w ds else none
  | .nop => some [.statusRead]

/-- The (`CMD`, `DATA`) pairs of a line. -/
def AsmLine.assemble (l : AsmLine) : Option (List Command) := l.expand.map fun is => is.map encode

/-- The value of a digit in a base up to 16. -/
def digitValue (c : Char) : Option Nat :=
  if '0' ≤ c ∧ c ≤ '9' then some (c.toNat - 48)
  else if 'a' ≤ c ∧ c ≤ 'f' then some (c.toNat - 87)
  else if 'A' ≤ c ∧ c ≤ 'F' then some (c.toNat - 55)
  else none

/-- The number that digits in a base write, after those already read. -/
def parseDigits (base : Nat) : Nat → List Char → Option Nat
  | acc, [] => some acc
  | acc, c :: rest =>
    match digitValue c with
    | some v => if v < base then parseDigits base (acc * base + v) rest else none
    | none => none

/-- A number, decimal or `0x` hexadecimal (30_encoding.md R81). -/
def parseNumber : List Char → Option Nat
  | [] => none
  | ['0', 'x'] => none
  | '0' :: 'x' :: ds => parseDigits 16 0 ds
  | ds => parseDigits 10 0 ds

/-- Text without the blanks around it. -/
def trimBlanks (t : List Char) : List Char :=
  ((t.dropWhile (· == ' ')).reverse.dropWhile (· == ' ')).reverse

/-- Operands separated by commas (30_encoding.md R81). -/
def parseOperands (t : List Char) : Option (List Nat) :=
  if t = [] then some [] else (t.splitOn ',').mapM fun o => parseNumber (trimBlanks o)

/-- The line of a mnemonic with its operands (30_encoding.md R81, R82). -/
def asmLineOf (mnemonic : List Char) (ops : List Nat) : Option AsmLine :=
  match String.ofList mnemonic, ops with
  | "GET_RAW", [i] => some (.getRaw i)
  | "SET_RAW", [i, v] => some (.setRaw i v)
  | "GET", [i] => some (.get i)
  | "LIGHT_GET", [i] => some (.lightGet i)
  | "WORD_READ", [w] => some (.wordRead w)
  | "WORD_WRITE", [w, d] => some (.wordWrite w d)
  | "PAL_READ", [p] => some (.palRead p)
  | "PAL_WRITE", [p, d] => some (.palWrite p d)
  | "CFG_READ", [] => some .cfgRead
  | "CFG_WRITE", [d] => some (.cfgWrite d)
  | "INIT_EMPTY", [] => some .initEmpty
  | "STATUS_READ", [] => some .statusRead
  | "LWORD_READ", [w] => some (.lwordRead w)
  | "LWORD_WRITE", [w, d] => some (.lwordWrite w d)
  | "CFG", [b, e, n] => some (.cfg b e n)
  | "CFG_PALETTED", [b, n] => some (.cfgPaletted b n)
  | "CFG_DIRECT", [] => some .cfgDirect
  | "LOAD_PALETTE", vs => some (.loadPalette vs)
  | "LOAD_WORDS", w :: ds => some (.loadWords w ds)
  | "NOP", [] => some .nop
  | _, _ => none

/-- One line of text: none where it is no line of the syntax, `some none` where it holds only a comment
(30_encoding.md R81). -/
def parseLine (t : List Char) : Option (Option AsmLine) :=
  let code := trimBlanks (t.takeWhile (· != ';'))
  if code = [] then some none
  else
    (parseOperands (trimBlanks (code.dropWhile (· != ' ')))).bind fun ops =>
      (asmLineOf (code.takeWhile (· != ' ')) ops).map some

/-- The commands of one line of text. -/
def assembleText (t : List Char) : Option (List Command) :=
  (parseLine t).bind fun l =>
    match l with
    | none => some []
    | some l => l.assemble

/-- One hexadecimal digit. -/
def hexDigit (n : Nat) : Char := if n < 10 then Char.ofNat (48 + n) else Char.ofNat (55 + n)

/-- The last `k` hexadecimal digits of a number, most significant first. -/
def hexDigits : Nat → Nat → List Char
  | 0, _ => []
  | k + 1, n => hexDigits k (n / 16) ++ [hexDigit (n % 16)]

/-- A command in a listing: `CMD=0xhhhhhhhh DATA=0xhhhhhhhhhhhhhhhh` (30_encoding.md R83). -/
def commandListing (c : Command) : List Char :=
  "CMD=0x".toList ++ hexDigits 8 c.word.toNat ++ " DATA=0x".toList ++ hexDigits 16 c.data.toNat

/-- The name of a status code (60_exceptions.md R180). -/
def statusName : StatusCode → String
  | .ok => "OK"
  | .indexOutOfRange => "INDEX_OUT_OF_RANGE"
  | .invalidRawValue => "INVALID_RAW_VALUE"
  | .unmappedRawCode => "UNMAPPED_RAW_CODE"
  | .invalidConfig => "INVALID_CONFIG"
  | .illegalCommand => "ILLEGAL_COMMAND"
  | .addrOutOfRange => "ADDR_OUT_OF_RANGE"
  | .halted => "HALTED"

/-- A response in a listing: `-> STATUS_NAME, 0xhhhhhhhhhhhhhhhh` (30_encoding.md R83). -/
def responseListing (r : Response) : List Char :=
  "-> ".toList ++ (statusName r.status).toList ++ ", 0x".toList ++ hexDigits 16 r.data.toNat

end Sys2Proof.Machine
end

