-- ==== Sys2Proof/Machine/HostInterface.lean ====
section
/-! DEFINITION. The document's external interface as the host carries it out with commands: `from_parts` and the readers
(43_config_host.md R157, R158). -/

namespace Sys2Proof.Machine

/-- Commands executed in order, each completely before the next (20_memory.md R50). A command that answers an error does
not end the sequence: the model's host goes on (log 22). -/
def execAll : List Instr → State → Host.Outcome State Fault Refusal
  | [], s => .next s
  | i :: rest, s =>
    match exec i s with
    | .next t => execAll rest t
    | .fault f => .fault f
    | .refused r => .refused r

/-- `WORD_WRITE w, d` for the words `d` from address `w` on. -/
def wordWrites : Nat → List Word → List Instr
  | _, [] => []
  | w, d :: rest => .wordWrite (BitVec.ofNat 16 w) d :: wordWrites (w + 1) rest

/-- `PAL_WRITE p, d` for the entries `d` from address `p` on. -/
def palWrites : Nat → List Word → List Instr
  | _, [] => []
  | p, d :: rest => .palWrite (BitVec.ofNat 16 p) d :: palWrites (p + 1) rest

/-- The CONFIG image `from_parts` writes (43_config_host.md R157). A palette too long for the 9-bit field is written as
511 entries, which is refused as every length above 256 is (log 20). -/
def partsImage (bitsPerValue : BitVec 8) (palette : Option (List Word)) : Word :=
  match palette with
  | some pal => BitVec.ofNat 64 (cfgImage bitsPerValue.toNat 1 (min pal.length 511))
  | none => BitVec.ofNat 64 (cfgImage bitsPerValue.toNat 0 0)

/-- The entries of a palette for which a `PAL_WRITE` exists: IDX is 16 bits (30_encoding.md R75), so an entry from 65536 on
has no command (log 20). -/
def paletteEntries (palette : Option (List Word)) : List Word := (palette.getD []).take (2 ^ 16)

/-- `from_parts(bits_per_value, words, palette)` (43_config_host.md R157), in one of its orders; words beyond 832 are
dropped. R157 does not say whether the host still issues the writes when `CFG_WRITE` answers INVALID_CONFIG; the model's
host does, so the parts it refuses still overwrite words and entries (log 22). -/
def fromParts (bitsPerValue : BitVec 8) (words : List Word) (palette : Option (List Word)) : List Instr :=
  .cfgWrite (partsImage bitsPerValue palette) ::
    (wordWrites 0 (words.take Config.wsDepth) ++ palWrites 0 (paletteEntries palette))

/-- The data of a response that completed (30_encoding.md R73). -/
def Port.okData (p : Port) : Option Word :=
  match p.response with
  | some ⟨.ok, d⟩ => some d
  | _ => none

/-- The host issues commands in order and reads the data of each response, with the state they leave; none where one does
not complete, as in a halted block (60_exceptions.md R184): what a reader then gives is the model's choice (log 22). -/
def askAll : List Instr → State → Option (List Word × State)
  | [], s => some ([], s)
  | i :: rest, s =>
    match exec i s with
    | .next t => t.port.okData.bind fun d => (askAll rest t).map fun r => (d :: r.1, r.2)
    | .fault _ => none
    | .refused _ => none

/-- The host reads CONFIG with `CFG_READ`. -/
def askConfig (s : State) : Option (Word × State) := (askAll [.cfgRead] s).bind fun r => r.1.head?.map fun d => (d, r.2)

/-- `bits_per_value()`: `BPV` of the response of `CFG_READ` (43_config_host.md R158). -/
def State.bitsPerValue (s : State) : Option Nat := (askConfig s).map fun r => cfgBpv r.1

/-- `palette()`: absent (`some none`) when `PAL_EN` is 0 in the response of `CFG_READ`, else the responses of `PAL_READ` for
the entries below `PAL_LEN` (43_config_host.md R158). -/
def State.palette (s : State) : Option (Option (List Word)) :=
  (askConfig s).bind fun r =>
    if cfgPalEn r.1 then
      (askAll ((List.range (cfgPalLen r.1)).map fun p => .palRead (BitVec.ofNat 16 p)) r.2).map fun a => some a.1
    else some none

/-- `words()`: the responses of `WORD_READ` for the active words (43_config_host.md R158, 20_memory.md R55). -/
def State.words (s : State) : Option (List Word) :=
  (askConfig s).bind fun r =>
    (askAll ((List.range (64 * cfgBpv r.1)).map fun w => .wordRead (BitVec.ofNat 16 w)) r.2).map (·.1)

end Sys2Proof.Machine
end

