-- ==== Sys2Proof/Safety.lean ====
section
/-! DEFINITION. What every reachable state of the block satisfies, and what a safe run is: one that never stops with a
fault. -/

namespace Sys2Proof.Machine

/-- A response carries data 0 unless its status is OK (30_encoding.md R73). -/
abbrev responseDataRule (r : Response) : Prop := r.status ≠ .ok → r.data = 0#64

/-- The values of the sticky STATUS fields that can occur (10_state.md R25). -/
abbrev Status.legal (st : Status) : Prop :=
  if st.fatal then (st.fatalCode = 2#4 ∨ st.fatalCode = 3#4) ∧ st.fatalIdx.toNat < Config.nElem
  else st.fatalCode = 0#4 ∧ st.fatalIdx = 0#16

/-- The invariant of the block. -/
structure Inv (s : State) : Prop where
  /-- CONFIG always satisfies the conditions of 10_state.md R24 and its reserved bits read 0 (R23). -/
  config : cfgLegal (s.config.setWidth 64) = true
  /-- 10_state.md R25. -/
  status : s.status.legal
  /-- The memories are in canonical form, within their depths (20_memory.md R51). -/
  memory : Memory.wf s
  /-- Without `HAS_LIGHT` the light store does not exist (00_scope.md R10). -/
  noLight : s.params.hasLight = false → s.ls = []
  /-- The response in progress or offered obeys 30_encoding.md R73. -/
  pending : ∀ r ∈ s.port.response, responseDataRule r
  /-- So do the responses the host has taken. -/
  taken : ∀ r ∈ s.taken, responseDataRule r

/-- A run is safe for `n` steps when it does not end in a fault. -/
def SafeFor (n : Nat) (s : State) : Prop := ∀ f, Sys2Proof.core.run n s ≠ .fault f

/-- The fields of a command word as numbers (30_encoding.md R71). -/
def opNumber (c : Command) : Nat := c.word.toNat / 2 ^ 28
/-- `RSV` as a number. -/
def rsvNumber (c : Command) : Nat := c.word.toNat / 2 ^ 16 % 2 ^ 12
/-- `IDX` as a number. -/
def idxNumber (c : Command) : Nat := c.word.toNat % 2 ^ 16

/-- The four clauses of 30_encoding.md R78, on the numbers of the fields. -/
def illegalWord (hasLight : Bool) (c : Command) : Bool :=
  opNumber c == 0x0 || opNumber c == 0xF || rsvNumber c != 0 || ([0x9, 0xA, 0xB, 0xC].contains (opNumber c) && idxNumber c != 0) ||
    ([0x4, 0xD, 0xE].contains (opNumber c) && !hasLight)

/-- The checks of a command in the order of 60_exceptions.md R186, each with the status it reports when it fails. -/
def State.checks (s : State) (c : Command) : List (Bool × StatusCode) :=
  [(illegalWord s.params.hasLight c, .illegalCommand),
   (s.halted && opNumber c != 0xC, .halted),
   ([0x1, 0x2, 0x3, 0x4].contains (opNumber c) && 4096 ≤ idxNumber c, .indexOutOfRange),
   ([0x5, 0x6].contains (opNumber c) && 832 ≤ idxNumber c, .addrOutOfRange),
   ([0x7, 0x8, 0xD, 0xE].contains (opNumber c) && 256 ≤ idxNumber c, .addrOutOfRange),
   (opNumber c == 0x2 && 2 ^ s.bpv ≤ c.data.toNat, .invalidRawValue),
   (opNumber c == 0xA && !cfgLegal c.data, .invalidConfig),
   (opNumber c == 0x3 && s.palEn && s.palLen ≤ (getRaw s.bpv s.ws (idxNumber c)).toNat, .unmappedRawCode)]

/-- The status of the first check that fails, OK when none does. -/
def State.firstFailure (s : State) (c : Command) : StatusCode := ((s.checks c).find? (·.1)).elim .ok (·.2)

/-- The host keeps its duty (30_encoding.md R86) over edges at which no command transfers, `owed` being the command it has
offered before: each edge offers what the edge before left owed. -/
def heldOver (owed : Option Command) : List Edge → Bool
  | [] => true
  | e :: rest => (owed == none || owed == e.offer) && heldOver e.offer rest

/-- No reset, and the block does not finish: an edge of the block's latency, whatever the host drives (log 5). -/
abbrev Edge.waits (e : Edge) : Prop := e.rst = false ∧ e.finish = false

/-- No reset, and the host takes no response, whatever else it drives. -/
abbrev Edge.leaves (e : Edge) : Prop := e.rst = false ∧ e.rspReady = false

/-- Two states that agree on everything of the block but the port (10_state.md R33, R32). -/
def State.sameBlock (s t : State) : Prop :=
  s.params = t.params ∧ s.config = t.config ∧ s.status = t.status ∧ s.ws = t.ws ∧ s.pal = t.pal ∧ s.ls = t.ls

/-- Two outcomes related by `R` on next states, and equal where they stop. -/
def sameOutcome (R : State → State → Prop) : (o o' : Host.Outcome State Fault Refusal) → Prop
  | .next s, .next t => R s t
  | .fault f, .fault g => f = g
  | .refused r, .refused q => r = q
  | _, _ => False

end Sys2Proof.Machine
end

