-- ==== Sys2Proof/Certificates/Slice0/Obligations.lean ====
section
/-! DEFINITION. The statements for the provers. Each docstring names the rule it formalises. -/

open Sys2Proof Sys2Proof.Machine

/-! ### Decoding, encoding and the step -/

/-- 30_encoding.md R74, R81: words written out from the opcode map decode to the commands they stand for. -/
def Obligations.WrittenWordsDecode : Prop :=
  decode true ⟨0x1000000C, 0⟩ = .ok (.getRaw 12) ∧ decode true ⟨0x2000000C, 0x11⟩ = .ok (.setRaw 12 17) ∧
    decode true ⟨0x30000064, 0⟩ = .ok (.get 100) ∧ decode true ⟨0x40000001, 0⟩ = .ok (.lightGet 1) ∧
    decode true ⟨0x6000033F, 5⟩ = .ok (.wordWrite 831 5) ∧ decode true ⟨0x700000FF, 0⟩ = .ok (.palRead 255) ∧
    decode true ⟨0xA0000000, 0x200105⟩ = .ok (.cfgWrite 0x200105) ∧ decode true ⟨0xE00000FF, 7⟩ = .ok (.lwordWrite 255 7)

/-- 30_encoding.md R71, R74, R81: decoding the words of a command gives the command, on every block that has it. -/
def Obligations.DecodeEncodeRoundTrip : Prop :=
  ∀ (hasLight : Bool) (i : Instr), i.wellFormed hasLight = true → decode hasLight (encode i) = .ok i

/-- 30_encoding.md R71, R72: a decoded command keeps every bit of its command word, keeps DATA where it uses it, and
exists on the block. -/
def Obligations.DecodedCommandEncodesBack : Prop :=
  ∀ (hasLight : Bool) (c : Command) (i : Instr), decode hasLight c = .ok i →
    (encode i).word = c.word ∧ i.wellFormed hasLight = true ∧
      ((encode i).data = c.data ∨ (encode i).data = 0 ∧ opNumber c ∉ [0x2, 0x6, 0x8, 0xA, 0xE])

/-- 30_encoding.md R78: a command is illegal exactly in the four cases of the rule; it then completes with status 5 and
no other effect, halted or not, and a command that is none of them is decoded. -/
def Obligations.IllegalCommandsAreThoseOfTheRule : Prop :=
  ∀ (s : State) (c : Command),
    ((opNumber c = 0x0 ∨ opNumber c = 0xF ∨ rsvNumber c ≠ 0 ∨
          (opNumber c ∈ [0x9, 0xA, 0xB, 0xC] ∧ idxNumber c ≠ 0) ∨
          (opNumber c ∈ [0x4, 0xD, 0xE] ∧ s.params.hasLight = false)) →
        s.accept c = .next { s with port := .busy (some ⟨.illegalCommand, 0#64⟩) } ∧ StatusCode.illegalCommand.code = 5) ∧
      (¬ (opNumber c = 0x0 ∨ opNumber c = 0xF ∨ rsvNumber c ≠ 0 ∨
          (opNumber c ∈ [0x9, 0xA, 0xB, 0xC] ∧ idxNumber c ≠ 0) ∨
          (opNumber c ∈ [0x4, 0xD, 0xE] ∧ s.params.hasLight = false)) →
        ∃ i, decode s.params.hasLight c = .ok i ∧ s.accept c = exec i s)

/-- 30_encoding.md R72: DATA is the operand of the five commands that take one, and every other command ignores it. -/
def Obligations.DataIsIgnoredByCommandsWithoutData : Prop :=
  (∀ (s : State) (w : CmdWord) (d d' : Word), opNumber ⟨w, d⟩ ∉ [0x2, 0x6, 0x8, 0xA, 0xE] →
      s.accept ⟨w, d⟩ = s.accept ⟨w, d'⟩) ∧
    ∀ (i : Index) (d : Word), decode true ⟨commandWord 0x2 i, d⟩ = .ok (.setRaw i d) ∧
      decode true ⟨commandWord 0x6 i, d⟩ = .ok (.wordWrite i d) ∧ decode true ⟨commandWord 0x8 i, d⟩ = .ok (.palWrite i d) ∧
      decode true ⟨commandWord 0xA 0, d⟩ = .ok (.cfgWrite d) ∧ decode true ⟨commandWord 0xE i, d⟩ = .ok (.lwordWrite i d)

/-- 30_encoding.md R84, R85, R86, 00_scope.md R7: at an edge where the port is READY and the host drives a command it has
held, the step is `exec` of the decoded command; the edge is used up and the host's duty to hold the command ends. The
model's own: that a READY port takes a command at once (log 24), that the whole effect happens at the transfer edge
(log 6), and the pins as a list of edges (log 4). -/
def Obligations.StepRunsTheDecodedCommand : Prop :=
  ∀ (s : State) (e : Edge) (rest : List Edge) (c : Command) (i : Instr),
    s.port = .ready → s.inputs = e :: rest → e.rst = false → e.offer = some c → (s.offered = none ∨ s.offered = some c) →
    decode s.params.hasLight c = .ok i →
      step s = exec i { s with inputs := rest, offered := none }

/-- log 7, log 21, log 24: the state made by `withFetchWord` runs the command of the table word at its next step, on any block. -/
def Obligations.FetchWordRunsAtTheNextStep : Prop :=
  ∀ (s : State) (w : Nat) (i : Instr), decode s.params.hasLight ⟨BitVec.ofNat 32 w, 0⟩ = .ok i →
    step (s.withFetchWord 32 w) = exec i { s with port := .ready, offered := none }

/-- 30_encoding.md R81: what the assembler writes for each command, and that it refuses an index that does not fit. -/
def Obligations.AssemblerWritesTheTable : Prop :=
  (∀ i d : Nat, i < 65536 → d < 2 ^ 64 →
    (AsmLine.getRaw i).assemble = some [⟨BitVec.ofNat 32 (0x10000000 + i), 0⟩] ∧
    (AsmLine.setRaw i d).assemble = some [⟨BitVec.ofNat 32 (0x20000000 + i), BitVec.ofNat 64 d⟩] ∧
    (AsmLine.get i).assemble = some [⟨BitVec.ofNat 32 (0x30000000 + i), 0⟩] ∧
    (AsmLine.lightGet i).assemble = some [⟨BitVec.ofNat 32 (0x40000000 + i), 0⟩] ∧
    (AsmLine.wordRead i).assemble = some [⟨BitVec.ofNat 32 (0x50000000 + i), 0⟩] ∧
    (AsmLine.wordWrite i d).assemble = some [⟨BitVec.ofNat 32 (0x60000000 + i), BitVec.ofNat 64 d⟩] ∧
    (AsmLine.palRead i).assemble = some [⟨BitVec.ofNat 32 (0x70000000 + i), 0⟩] ∧
    (AsmLine.palWrite i d).assemble = some [⟨BitVec.ofNat 32 (0x80000000 + i), BitVec.ofNat 64 d⟩] ∧
    AsmLine.cfgRead.assemble = some [⟨0x90000000, 0⟩] ∧
    (AsmLine.cfgWrite d).assemble = some [⟨0xA0000000, BitVec.ofNat 64 d⟩] ∧
    AsmLine.initEmpty.assemble = some [⟨0xB0000000, 0⟩] ∧
    AsmLine.statusRead.assemble = some [⟨0xC0000000, 0⟩] ∧
    (AsmLine.lwordRead i).assemble = some [⟨BitVec.ofNat 32 (0xD0000000 + i), 0⟩] ∧
    (AsmLine.lwordWrite i d).assemble = some [⟨BitVec.ofNat 32 (0xE0000000 + i), BitVec.ofNat 64 d⟩]) ∧
  ∀ i d : Nat, 65536 ≤ i → (AsmLine.getRaw i).assemble = none ∧ (AsmLine.setRaw i d).assemble = none ∧
    (AsmLine.get i).assemble = none ∧ (AsmLine.lightGet i).assemble = none ∧ (AsmLine.wordRead i).assemble = none ∧
    (AsmLine.wordWrite i d).assemble = none ∧ (AsmLine.palRead i).assemble = none ∧ (AsmLine.palWrite i d).assemble = none ∧
    (AsmLine.lwordRead i).assemble = none ∧ (AsmLine.lwordWrite i d).assemble = none

/-- 30_encoding.md R82: what each pseudo-instruction expands to. That CFG also takes operands too large for their CONFIG
fields, while the image fits DATA, is the model's choice (log 23). -/
def Obligations.PseudoInstructionsExpand : Prop :=
  (∀ b e n : Nat, b + e * 2 ^ 8 + n * 2 ^ 16 < 2 ^ 64 →
      (AsmLine.cfg b e n).expand = some [.cfgWrite (BitVec.ofNat 64 (b + e * 2 ^ 8 + n * 2 ^ 16))]) ∧
    (∀ b n : Nat, (AsmLine.cfgPaletted b n).expand = (AsmLine.cfg b 1 n).expand) ∧
    AsmLine.cfgDirect.expand = (AsmLine.cfg 13 0 0).expand ∧ AsmLine.cfgDirect.expand = some [.cfgWrite 0x0000000D] ∧
    (∀ vs : List Nat, 1 ≤ vs.length → vs.length ≤ 256 → (∀ v ∈ vs, v < 2 ^ 64) →
      (AsmLine.loadPalette vs).expand = some (vs.mapIdx fun k v => .palWrite (BitVec.ofNat 16 k) (BitVec.ofNat 64 v))) ∧
    (∀ (w : Nat) (ds : List Nat), 1 ≤ ds.length → w + ds.length ≤ 65536 → (∀ d ∈ ds, d < 2 ^ 64) →
      (AsmLine.loadWords w ds).expand = some (ds.mapIdx fun k d => .wordWrite (BitVec.ofNat 16 (w + k)) (BitVec.ofNat 64 d))) ∧
    AsmLine.nop.expand = some [.statusRead]

/-! ### The codec -/

/-- 40_codec.md R91: the ranges of the addressing values at every legal width; every shift amount is below 64 and the
mask of an element in one word fits in 64 bits. -/
def Obligations.AddressingValuesInRange : Prop :=
  ∀ b i : Nat, 4 ≤ b → b ≤ 13 → i ≤ 4095 →
    (place b i).start ≤ 53235 ∧ (place b i).start + b - 1 ≤ 53247 ∧ (place b i).w0 ≤ (place b i).w1 ∧
      (place b i).w1 ≤ 64 * b - 1 ∧ 64 * b - 1 ≤ 831 ∧
      (place b i).off < 64 ∧
      ((place b i).straddle = false → (place b i).off + b ≤ 64 ∧ (2 ^ b - 1) * 2 ^ (place b i).off < 2 ^ 64) ∧
      ((place b i).straddle = true → 65 - b ≤ (place b i).off ∧ 52 ≤ (place b i).off ∧ (place b i).w1 = (place b i).w0 + 1 ∧
        1 ≤ 64 - (place b i).off ∧ 64 - (place b i).off ≤ 12 ∧ 1 ≤ b - (64 - (place b i).off) ∧
        b - (64 - (place b i).off) ≤ 12) ∧
      (b = 4 ∨ b = 8 → (place b i).straddle = false)

/-- 40_codec.md R97: which elements straddle, by width: how many, at which start offsets, and which first; the pattern
repeats every 64 elements. Each row is width, active words, count, offsets, first indexes. -/
def Obligations.StraddlingElementsByWidth : Prop :=
  (∀ row ∈ ([(4, 256, 0, [], []), (5, 320, 256, [60, 61, 62, 63], [12, 25, 38, 51]),
      (6, 384, 256, [60, 62], [10, 21, 42, 53]), (7, 448, 384, [58, 59, 60, 61, 62, 63], [9, 18, 27, 36, 45, 54]),
      (8, 512, 0, [], []), (9, 576, 512, [56, 57, 58, 59, 60, 61, 62, 63], [7, 14, 21, 28, 35, 42]),
      (10, 640, 512, [56, 58, 60, 62], [6, 12, 19, 25, 38, 44]),
      (11, 704, 640, [54, 55, 56, 57, 58, 59, 60, 61, 62, 63], [5, 11, 17, 23, 29, 34]),
      (12, 768, 512, [56, 60], [5, 10, 21, 26, 37, 42]),
      (13, 832, 768, [52, 53, 54, 55, 56, 57, 58, 59, 60, 61, 62, 63], [4, 9, 14, 19, 24, 29])] :
      List (Nat × Nat × Nat × List Nat × List Nat)),
    64 * row.1 = row.2.1 ∧ (List.range 4096).countP (fun i => (place row.1 i).straddle) = row.2.2.1 ∧
      (∀ off, off ∈ row.2.2.2.1 ↔ ∃ i < 4096, (place row.1 i).straddle = true ∧ (place row.1 i).off = off) ∧
      ((List.range 4096).filter fun i => (place row.1 i).straddle).take row.2.2.2.2.length = row.2.2.2.2) ∧
    ∀ b i : Nat, 4 ≤ b → b ≤ 13 →
      (place b (i + 64)).straddle = (place b i).straddle ∧ (place b (i + 64)).off = (place b i).off

/-- 40_codec.md R96: GetRaw and SetRaw seen through the flat bit string, at every legal width. -/
def Obligations.CodecIsTheFlatBitView : Prop :=
  ∀ (b : Nat) (ws : Store) (i : Nat), 4 ≤ b → b ≤ 13 → i < 4096 → Store.wf 832 ws →
    (getRaw b ws i).toNat = ∑ k ∈ Finset.range b, (ws.flat (b * i + k)).toNat <<< k ∧
      ∀ v : Word, v.toNat < 2 ^ b →
        (∀ k < b, (setRaw b ws i v).flat (b * i + k) = v.getLsbD k) ∧
          ∀ p, p < b * i ∨ b * i + b ≤ p → (setRaw b ws i v).flat p = ws.flat p

/-- 40_codec.md R94, R92, R96: GET_RAW completes on every element of a block that is not halted, whatever the mode, and
returns the element's bits of the Word Store with zeros above; it changes nothing but the port. -/
def Obligations.GetRawReturnsTheStoredCode : Prop :=
  ∀ (s : State) (idx : Index), cfgLegal (s.config.setWidth 64) = true → s.halted = false → idx.toNat < 4096 →
    ∃ v : Word, exec (.getRaw idx) s = .next { s with port := .busy (some ⟨.ok, v⟩) } ∧
      ∀ k, v.getLsbD k = (decide (k < s.bpv) && s.ws.flat (s.bpv * idx.toNat + k))

/-- 40_codec.md R95, R93: SET_RAW of a code that fits completes with data 0 and changes nothing but the port and the
element's own bits of the Word Store, which stays in canonical form. -/
def Obligations.SetRawStoresTheElementOnly : Prop :=
  ∀ (s : State) (idx : Index) (v : Word), Inv s → s.halted = false → idx.toNat < 4096 → v.toNat < 2 ^ s.bpv →
    ∃ ws' : Store, exec (.setRaw idx v) s = .next { s with ws := ws', port := .busy (some ⟨.ok, 0#64⟩) } ∧
      Store.wf 832 ws' ∧
      ∀ p, ws'.flat p =
        if s.bpv * idx.toNat ≤ p ∧ p < s.bpv * idx.toNat + s.bpv then v.getLsbD (p - s.bpv * idx.toNat) else s.ws.flat p

/-- 40_codec.md R95, 60_exceptions.md R183: SET_RAW of a value of `2^BPV` or more is the fatal INVALID_RAW_VALUE: nothing
is written and STATUS records code 2 and the index. -/
def Obligations.SetRawOfTooLargeValueIsFatal : Prop :=
  ∀ (s : State) (idx : Index) (v : Word), s.halted = false → idx.toNat < 4096 → 2 ^ s.bpv ≤ v.toNat →
    exec (.setRaw idx v) s =
      .next { s with status := ⟨true, 2#4, idx⟩, port := .busy (some ⟨.invalidRawValue, 0#64⟩) }

/-- 70_reset_and_hazards.md R220, 20_memory.md R50: a GET_RAW straight after a SET_RAW returns the new code for the same
element and the old one for every other. -/
def Obligations.GetRawSeesTheSetRawBefore : Prop :=
  ∀ (s : State) (idx jdx : Index) (v : Word), Inv s → s.halted = false → idx.toNat < 4096 → jdx.toNat < 4096 →
    v.toNat < 2 ^ s.bpv →
    ∃ (t : State) (u : Word), exec (.setRaw idx v) s = .next t ∧
      exec (.getRaw jdx) s = .next { s with port := .busy (some ⟨.ok, u⟩) } ∧
      exec (.getRaw jdx) t = .next { t with port := .busy (some ⟨.ok, if jdx = idx then v else u⟩) }

/-- 40_codec.md R98: round trip, frame, idempotence, last write wins, commutation. -/
def Obligations.CodecLaws : Prop :=
  ∀ (b : Nat) (ws : Store) (i j : Nat) (u v : Word), 4 ≤ b → b ≤ 13 → i < 4096 → j < 4096 → i ≠ j → Store.wf 832 ws →
    u.toNat < 2 ^ b → v.toNat < 2 ^ b →
    getRaw b (setRaw b ws i v) i = v ∧
      getRaw b (setRaw b ws i v) j = getRaw b ws j ∧
      (∀ a, a ≠ (place b i).w0 → a ≠ (place b i).w1 → (setRaw b ws i v).read a = ws.read a) ∧
      setRaw b (setRaw b ws i v) i v = setRaw b ws i v ∧
      setRaw b (setRaw b ws i v) i u = setRaw b ws i u ∧
      setRaw b (setRaw b ws i v) j u = setRaw b (setRaw b ws j u) i v

/-- 20_memory.md R55: the codec never reaches past the active words: no codec command changes one, and neither the
response nor any effect of GET_RAW, GET or SET_RAW depends on them. -/
def Obligations.CodecKeepsToTheActiveWords : Prop :=
  (∀ (s t : State) (idx : Index) (v : Word), Inv s → ∀ i ∈ [Instr.getRaw idx, .setRaw idx v, .get idx],
      exec i s = .next t → ∀ w, 64 * s.bpv ≤ w → t.ws.read w = s.ws.read w) ∧
    (∀ (s : State) (ws' : Store) (idx : Index), Inv s → (∀ w < 64 * s.bpv, ws'.read w = s.ws.read w) →
      ∀ i ∈ [Instr.getRaw idx, .get idx],
        sameOutcome (fun t t' => t' = { t with ws := ws' }) (exec i s) (exec i { s with ws := ws' })) ∧
    ∀ (s : State) (ws' : Store) (idx : Index) (v : Word), Inv s → Store.wf 832 ws' →
      (∀ w < 64 * s.bpv, ws'.read w = s.ws.read w) →
        sameOutcome (fun t t' => t' = { t with ws := t'.ws } ∧ ∀ w < 64 * s.bpv, t'.ws.read w = t.ws.read w)
          (exec (.setRaw idx v) s) (exec (.setRaw idx v) { s with ws := ws' })

/-- 40_codec.md R99: GET_RAW and SET_RAW behave the same whatever the palette and the mode, in two blocks that agree on
BPV and the Word Store; and CFG_WRITE moves no bit of the Word Store. -/
def Obligations.CodecIsIndependentOfThePalette : Prop :=
  (∀ (s t : State) (idx : Index) (v : Word), s.bpv = t.bpv → s.ws = t.ws → s.status = t.status →
      sameOutcome (fun s' t' => s'.port = t'.port ∧ s'.ws = t'.ws ∧ s'.status = t'.status)
        (exec (.getRaw idx) s) (exec (.getRaw idx) t) ∧
      sameOutcome (fun s' t' => s'.port = t'.port ∧ s'.ws = t'.ws ∧ s'.status = t'.status)
        (exec (.setRaw idx v) s) (exec (.setRaw idx v) t)) ∧
    ∀ (s t : State) (d : Word), exec (.cfgWrite d) s = .next t → t.ws = s.ws

/-- 70_reset_and_hazards.md R221: after CFG_WRITE the same bit string is read at the new width. -/
def Obligations.ConfigWriteReinterpretsTheSameBits : Prop :=
  ∀ (s : State) (d : Word) (idx : Index), s.halted = false → cfgLegal d = true → idx.toNat < 4096 →
    ∃ (t : State) (v : Word), exec (.cfgWrite d) s = .next t ∧
      exec (.getRaw idx) t = .next { t with port := .busy (some ⟨.ok, v⟩) } ∧
      ∀ k, v.getLsbD k = (decide (k < d.toNat % 16) && s.ws.flat (d.toNat % 16 * idx.toNat + k))

/-! ### The palette -/

/-- 41_palette.md R110, R111: GET in direct mode returns the raw code; in paletted mode the entry of the raw code, or the
fatal UNMAPPED_RAW_CODE when the code is not below PAL_LEN. It writes no memory. The raw code is given by its bits of the
Word Store (40_codec.md R96). -/
def Obligations.GetFollowsTheLookup : Prop :=
  ∀ (s : State) (idx : Index) (raw : Word), cfgLegal (s.config.setWidth 64) = true → s.halted = false → idx.toNat < 4096 →
    (∀ k, raw.getLsbD k = (decide (k < s.bpv) && s.ws.flat (s.bpv * idx.toNat + k))) →
    exec (.get idx) s =
      if s.palEn = true then
        if s.palLen ≤ raw.toNat then
          .next { s with status := ⟨true, 3#4, idx⟩, port := .busy (some ⟨.unmappedRawCode, 0#64⟩) }
        else .next { s with port := .busy (some ⟨.ok, s.pal.read raw.toNat⟩) }
      else .next { s with port := .busy (some ⟨.ok, raw⟩) }

/-- 41_palette.md R112, R113: PAL_WRITE stores all 64 bits of one entry in either mode and changes no other, and PAL_READ
returns an entry whatever PAL_LEN and PAL_EN are. -/
def Obligations.PaletteEntriesReadBack : Prop :=
  ∀ (s : State) (p q : Index) (d : Word), Memory.wf s → s.halted = false → p.toNat < 256 → q.toNat < 256 →
    exec (.palRead q) s = .next { s with port := .busy (some ⟨.ok, s.pal.read q.toNat⟩) } ∧
    ∃ pal' : Store,
      exec (.palWrite p d) s = .next { s with pal := pal', port := .busy (some ⟨.ok, 0#64⟩) } ∧
      (∀ a, pal'.read a = if a = p.toNat then d else s.pal.read a) ∧
      exec (.palRead q) { s with pal := pal', port := .busy (some ⟨.ok, 0#64⟩) } =
        .next { s with pal := pal', port := .busy (some ⟨.ok, if q = p then d else s.pal.read q.toNat⟩) }

/-- 70_reset_and_hazards.md R222: a PAL_WRITE to the entry of an element's raw code changes the next GET of the element at
once, and a CFG_WRITE that lowers PAL_LEN to the code or below makes it fatal. -/
def Obligations.PaletteChangesActAtOnce : Prop :=
  ∀ (s t : State) (idx p : Index) (d : Word), Inv s → s.halted = false → idx.toNat < 4096 → s.palEn = true →
    exec (.getRaw idx) s = .next { s with port := .busy (some ⟨.ok, p.setWidth 64⟩) } → p.toNat < s.palLen →
    (exec (.palWrite p d) s = .next t → exec (.get idx) t = .next { t with port := .busy (some ⟨.ok, d⟩) }) ∧
      (cfgLegal d = true → cfgBpv d = s.bpv → cfgPalEn d = true → cfgPalLen d ≤ p.toNat → exec (.cfgWrite d) s = .next t →
        exec (.get idx) t =
          .next { t with status := ⟨true, 3#4, idx⟩, port := .busy (some ⟨.unmappedRawCode, 0#64⟩) })

/-! ### The light store -/

/-- 42_light.md R134: the closed forms of LightGet in both byte orders; with LITTLE it is the Word Store's layout at
BPV 4. -/
def Obligations.LightNibbleClosedForms : Prop :=
  ∀ (ls : Store) (i : Nat), i < 4096 →
    lightNibble .little ls i = ((ls.read (i / 16)).extractLsb' (4 * (i % 16)) 4).setWidth 64 ∧
      lightNibble .little ls i = getRaw 4 ls i ∧
      lightNibble .big ls i =
        ((ls.read (i / 16)).extractLsb' (if i % 16 % 2 = 0 then 56 - 8 * (i % 16 / 2) else 60 - 8 * (i % 16 / 2)) 4).setWidth 64

/-- 42_light.md R130, R131, 20_memory.md R53, R54: LIGHT_GET completes on every nibble and returns, zero-extended, the low
half of its byte for an even index and the high half for an odd one, the byte taken in the block's byte order. -/
def Obligations.LightGetReturnsTheNibble : Prop :=
  ∀ (s : State) (idx : Index), s.params.hasLight = true → s.halted = false → idx.toNat < 4096 →
    ∃ v : Word, exec (.lightGet idx) s = .next { s with port := .busy (some ⟨.ok, v⟩) } ∧
      ∀ k, v.getLsbD k = (decide (k < 4) &&
        (s.ls.read (idx.toNat / 2 / 8)).getLsbD
          ((match s.params.lightByteOrder with
            | .little => 8 * (idx.toNat / 2 % 8)
            | .big => 56 - 8 * (idx.toNat / 2 % 8)) + 4 * (idx.toNat % 2) + k))

/-- 42_light.md R132, R133: LWORD_WRITE stores one word of the light store and changes no other, and LWORD_READ returns a
word as stored, in either byte order. -/
def Obligations.LightWordsReadBack : Prop :=
  ∀ (s : State) (p q : Index) (d : Word), Memory.wf s → s.params.hasLight = true → s.halted = false → p.toNat < 256 →
    q.toNat < 256 →
    exec (.lwordRead q) s = .next { s with port := .busy (some ⟨.ok, s.ls.read q.toNat⟩) } ∧
    ∃ ls' : Store,
      exec (.lwordWrite p d) s = .next { s with ls := ls', port := .busy (some ⟨.ok, 0#64⟩) } ∧
      (∀ a, ls'.read a = if a = p.toNat then d else s.ls.read a) ∧
      exec (.lwordRead q) { s with ls := ls', port := .busy (some ⟨.ok, 0#64⟩) } =
        .next { s with ls := ls', port := .busy (some ⟨.ok, if q = p then d else s.ls.read q.toNat⟩) }

/-- 00_scope.md R10, 30_encoding.md R78: without the light store its three commands are illegal, whatever their operands,
halted or not. That `exec`, given one directly, answers the same is the model's choice (log 16). -/
def Obligations.LightCommandsNeedTheLightStore : Prop :=
  ∀ (s : State) (idx : Index) (d : Word), s.params.hasLight = false →
    ∀ i ∈ [Instr.lightGet idx, .lwordRead idx, .lwordWrite idx d],
      s.accept (encode i) = .next { s with port := .busy (some ⟨.illegalCommand, 0#64⟩) } ∧
        exec i s = .next { s with port := .busy (some ⟨.illegalCommand, 0#64⟩) }

/-! ### Configuration and host access -/

/-- 43_config_host.md R150, R151: WORD_WRITE stores one of the 832 words at any BPV and changes no other, and WORD_READ
returns a word as stored. -/
def Obligations.WordStoreWordsReadBack : Prop :=
  ∀ (s : State) (p q : Index) (d : Word), Memory.wf s → s.halted = false → p.toNat < 832 → q.toNat < 832 →
    exec (.wordRead q) s = .next { s with port := .busy (some ⟨.ok, s.ws.read q.toNat⟩) } ∧
    ∃ ws' : Store,
      exec (.wordWrite p d) s = .next { s with ws := ws', port := .busy (some ⟨.ok, 0#64⟩) } ∧
      (∀ a, ws'.read a = if a = p.toNat then d else s.ws.read a) ∧
      exec (.wordRead q) { s with ws := ws', port := .busy (some ⟨.ok, 0#64⟩) } =
        .next { s with ws := ws', port := .busy (some ⟨.ok, if q = p then d else s.ws.read q.toNat⟩) }

/-- 43_config_host.md R153: CfgLegal, on the bits of the image. -/
def Obligations.ConfigImageLegality : Prop :=
  ∀ d : Word, cfgLegal d = true ↔
    (∀ k < 64, 25 ≤ k ∨ (9 ≤ k ∧ k ≤ 15) ∨ (4 ≤ k ∧ k ≤ 7) → d.getLsbD k = false) ∧
      4 ≤ d.toNat % 16 ∧ d.toNat % 16 ≤ 13 ∧
      (d.getLsbD 8 = false → d.toNat % 16 = 13 ∧ d.toNat / 65536 % 512 = 0) ∧
      (d.getLsbD 8 = true → 1 ≤ d.toNat / 65536 % 512 ∧ d.toNat / 65536 % 512 ≤ min (2 ^ (d.toNat % 16)) 256)

/-- 43_config_host.md R152, R154: a legal CFG_WRITE completes, changes CONFIG alone (and the port), and CFG_READ then
returns the whole image that was written. -/
def Obligations.ConfigWritesReadBack : Prop :=
  ∀ (s : State) (d : Word), s.halted = false → cfgLegal d = true →
    exec (.cfgWrite d) s = .next { s with config := d.setWidth 32, port := .busy (some ⟨.ok, 0#64⟩) } ∧
      exec .cfgRead { s with config := d.setWidth 32, port := .busy (some ⟨.ok, 0#64⟩) } =
        .next { s with config := d.setWidth 32, port := .busy (some ⟨.ok, d⟩) }

/-- 43_config_host.md R154, 10_state.md R23: an illegal image is refused whole. -/
def Obligations.IllegalConfigIsRefused : Prop :=
  ∀ (s : State) (d : Word), s.halted = false → cfgLegal d = false →
    exec (.cfgWrite d) s = .next { s with port := .busy (some ⟨.invalidConfig, 0#64⟩) }

/-- 43_config_host.md R152: CFG_READ returns CONFIG, zero-extended, and changes nothing but the port. -/
def Obligations.ConfigReadReturnsConfig : Prop :=
  ∀ s : State, s.halted = false →
    ∃ v : Word, exec .cfgRead s = .next { s with port := .busy (some ⟨.ok, v⟩) } ∧ v.toNat = s.config.toNat

/-- 43_config_host.md R155: INIT_EMPTY completes in one step with the document's empty array: CONFIG 0x00010104, every
word and every entry 0, the light store and STATUS unchanged; afterwards GET returns 0 for every element. -/
def Obligations.InitEmptyMakesTheEmptyArray : Prop :=
  ∀ s : State, s.halted = false →
    ∃ t : State, exec .initEmpty s = .next t ∧ t.port = .busy (some ⟨.ok, 0#64⟩) ∧ t.config = 0x00010104 ∧
      (∀ a, t.ws.read a = 0) ∧ (∀ a, t.pal.read a = 0) ∧ t.ls = s.ls ∧ t.status = s.status ∧ t.params = s.params ∧
      t.inputs = s.inputs ∧ t.offered = s.offered ∧ t.taken = s.taken ∧
      ∀ idx : Index, idx.toNat < 4096 → exec (.get idx) t = .next { t with port := .busy (some ⟨.ok, 0#64⟩) }

/-- 43_config_host.md R156, 10_state.md R25: STATUS_READ completes in every state, halted or not, changes nothing but the
port, and returns STATUS bit by bit as its table gives it. -/
def Obligations.StatusReadReturnsStatus : Prop :=
  ∀ s : State, ∃ v : Word, exec .statusRead s = .next { s with port := .busy (some ⟨.ok, v⟩) } ∧
    ∀ k, v.getLsbD k =
      (decide (k = 0) && s.status.fatal || (decide (4 ≤ k ∧ k ≤ 7) && s.status.fatalCode.getLsbD (k - 4)) ||
        (decide (16 ≤ k ∧ k ≤ 31) && s.status.fatalIdx.getLsbD (k - 16)) || (decide (k = 32) && s.params.hasLight) ||
        (decide (k = 33) && (s.params.hasLight && s.params.lightByteOrder == .big)))

/-- 43_config_host.md R157, R158: `from_parts` with parts the block can represent loads CONFIG, the words and the palette,
and the readers return them; words and entries beyond the given ones, the light store and STATUS are as before. -/
def Obligations.FromPartsLoadsTheArray : Prop :=
  ∀ (s : State) (b : BitVec 8) (words : List Word) (palette : Option (List Word)), Inv s → s.halted = false →
    4 ≤ b.toNat → b.toNat ≤ 13 →
    (match palette with
      | some pal => 1 ≤ pal.length ∧ pal.length ≤ min (2 ^ b.toNat) 256
      | none => b.toNat = 13) →
    ∃ t : State, execAll (fromParts b words palette) s = .next t ∧ t.bitsPerValue = some b.toNat ∧
      t.palette = some palette ∧
      (∀ w, t.ws.read w = if w < min words.length 832 then words.getD w 0 else s.ws.read w) ∧
      (64 * b.toNat ≤ words.length → t.words = some (words.take (64 * b.toNat))) ∧
      (∀ p, (palette.getD []).length ≤ p → t.pal.read p = s.pal.read p) ∧ t.ls = s.ls ∧ t.status = s.status

/-- 43_config_host.md R157: parts the block cannot represent are refused with INVALID_CONFIG and leave CONFIG as it was.
The image of a palette too long for the field PAL_LEN is the model's choice (log 20). -/
def Obligations.FromPartsRefusesBadParts : Prop :=
  ∀ (s : State) (b : BitVec 8) (palette : Option (List Word)), s.halted = false →
    (b.toNat < 4 ∨ 13 < b.toNat ∨
      (match palette with
        | some pal => pal.length < 1 ∨ min (2 ^ b.toNat) 256 < pal.length
        | none => b.toNat ≠ 13)) →
    exec (.cfgWrite (partsImage b palette)) s = .next { s with port := .busy (some ⟨.invalidConfig, 0#64⟩) }

/-- 43_config_host.md R157: the order of the loading commands does not matter for the final state: any two that complete
of CFG_WRITE, WORD_WRITE and PAL_WRITE, to different registers, words or entries, end in the same state in either order. -/
def Obligations.LoadingCommandsCommute : Prop :=
  ∀ (s : State) (a c p q : Index) (d e f : Word), Inv s → s.halted = false → a.toNat < 832 → c.toNat < 832 →
    p.toNat < 256 → q.toNat < 256 → a ≠ c → p ≠ q → cfgLegal d = true →
    ∀ pair ∈ [(Instr.cfgWrite d, Instr.wordWrite a e), (.cfgWrite d, .palWrite p e), (.wordWrite a e, .palWrite p f),
        (.wordWrite a e, .wordWrite c f), (.palWrite p e, .palWrite q f)],
      ∃ t : State, execAll [pair.1, pair.2] s = .next t ∧ execAll [pair.2, pair.1] s = .next t

/-! ### Errors and the halted state -/

/-- 60_exceptions.md R186: every command reports exactly one status, that of the first failing check in the order
legality, halted, range, operand value, stored data; OK when none fails. -/
def Obligations.StatusIsTheFirstFailingCheck : Prop :=
  ∀ (s : State) (c : Command), Inv s →
    ∃ (t : State) (d : Word), s.accept c = .next t ∧ t.port = .busy (some ⟨s.firstFailure c, d⟩)

/-- 30_encoding.md R75, 60_exceptions.md R180: an index or address above the legal range of its command is the non-fatal
INDEX_OUT_OF_RANGE or ADDR_OUT_OF_RANGE, whatever the other operand, and changes nothing but the port; for a light command
on a block that has it. -/
def Obligations.OutOfRangeOperandsAreReported : Prop :=
  ∀ (s : State) (idx : Index) (d : Word), s.halted = false →
    (4096 ≤ idx.toNat → ∀ i ∈ [Instr.getRaw idx, .setRaw idx d, .get idx, .lightGet idx],
      i.wellFormed s.params.hasLight = true → exec i s = .next { s with port := .busy (some ⟨.indexOutOfRange, 0#64⟩) }) ∧
    (832 ≤ idx.toNat → ∀ i ∈ [Instr.wordRead idx, .wordWrite idx d],
      exec i s = .next { s with port := .busy (some ⟨.addrOutOfRange, 0#64⟩) }) ∧
    (256 ≤ idx.toNat → ∀ i ∈ [Instr.palRead idx, .palWrite idx d, .lwordRead idx, .lwordWrite idx d],
      i.wellFormed s.params.hasLight = true → exec i s = .next { s with port := .busy (some ⟨.addrOutOfRange, 0#64⟩) })

/-- 60_exceptions.md R181, R182, 30_encoding.md R73: a command that answers a non-fatal error answers data 0 and changes
nothing but the port. -/
def Obligations.NonFatalErrorsChangeNothing : Prop :=
  ∀ (i : Instr) (s t : State) (c : StatusCode) (d : Word), exec i s = .next t → t.port = .busy (some ⟨c, d⟩) →
    c ∈ [StatusCode.indexOutOfRange, .invalidConfig, .illegalCommand, .addrOutOfRange, .halted] →
    d = 0 ∧ t = { s with port := .busy (some ⟨c, 0#64⟩) }

/-- 60_exceptions.md R183: raise_fatal, in a block that is not halted and in one that is; and a halted block executes no
command that raises a fatal error. -/
def Obligations.RaiseFatalKeepsTheFirstError : Prop :=
  ∀ (s : State) (code : StatusCode) (idx : Index),
    (s.status.fatal = false →
      s.raiseFatal code idx = .next { s with status := ⟨true, code.code, idx⟩, port := .busy (some ⟨code, 0#64⟩) }) ∧
    (s.status.fatal = true → s.raiseFatal code idx = .next { s with port := .busy (some ⟨code, 0#64⟩) }) ∧
    (s.status.fatal = true → ∀ (i : Instr) (t : State) (c : StatusCode) (d : Word), exec i s = .next t →
      t.port = .busy (some ⟨c, d⟩) → c.fatal = false)

/-- 60_exceptions.md R183, R185: a command that answers a fatal error was run by a block that was not halted; it latches
FATAL, its code and its own index, answers data 0, and changes nothing else. -/
def Obligations.FatalErrorsLatchStatusOnly : Prop :=
  ∀ (i : Instr) (s t : State) (c : StatusCode) (d : Word), exec i s = .next t → t.port = .busy (some ⟨c, d⟩) →
    c = .invalidRawValue ∨ c = .unmappedRawCode →
    s.status.fatal = false ∧ d = 0 ∧ i.index.toNat < 4096 ∧
      t = { s with status := ⟨true, c.code, i.index⟩, port := .busy (some ⟨c, 0#64⟩) }

/-- 60_exceptions.md R184: in the halted state an illegal command answers ILLEGAL_COMMAND, STATUS_READ completes, every
other legal command answers `(HALTED, 0)`, none with any other effect, and no edge without reset changes the block's
registers or memories; reset leaves the halted state. -/
def Obligations.HaltedBlockOnlyAnswers : Prop :=
  ∀ s : State, s.status.fatal = true →
    (∀ (c : Command) (why : Illegal), decode s.params.hasLight c = .error why →
      s.accept c = .next { s with port := .busy (some ⟨.illegalCommand, 0#64⟩) }) ∧
    (∀ (c : Command) (i : Instr), decode s.params.hasLight c = .ok i →
      s.accept c =
        .next { s with port := .busy (some (if i = .statusRead then ⟨.ok, s.statusReg⟩ else ⟨.halted, 0#64⟩)) }) ∧
    ∀ t : State, step s = .next t →
      if s.nextEdge.rst then t.status.fatal = false else State.sameBlock t s

/-- 10_state.md R25, 60_exceptions.md R190: STATUS is changed only by a fatal error in a block that is not halted, and by
reset. -/
def Obligations.StatusChangesOnlyByFatalErrorOrReset : Prop :=
  ∀ s t : State, step s = .next t → t.status ≠ s.status → s.nextEdge.rst = false →
    s.status.fatal = false ∧ ∃ (c : StatusCode) (idx : Index), c.fatal = true ∧ idx.toNat < 4096 ∧
      t.status = ⟨true, c.code, idx⟩ ∧ t.port = .busy (some ⟨c, 0#64⟩)

/-! ### Whole-machine rules -/

/-- Each part of the state is written only by the commands the spec says write it (20_memory.md R58, 10_state.md R23, R25,
R28): the frame of all fourteen. -/
def Obligations.EachCommandWritesOnlyItsOwn : Prop :=
  ∀ (i : Instr) (s t : State), exec i s = .next t →
    t.params = s.params ∧ t.inputs = s.inputs ∧ t.offered = s.offered ∧ t.taken = s.taken ∧
      ((∀ idx d, i ≠ .setRaw idx d) → (∀ idx d, i ≠ .wordWrite idx d) → i ≠ .initEmpty → t.ws = s.ws) ∧
      ((∀ idx d, i ≠ .palWrite idx d) → i ≠ .initEmpty → t.pal = s.pal) ∧
      ((∀ idx d, i ≠ .lwordWrite idx d) → t.ls = s.ls) ∧
      ((∀ d, i ≠ .cfgWrite d) → i ≠ .initEmpty → t.config = s.config) ∧
      ((∀ idx d, i ≠ .setRaw idx d) → (∀ idx, i ≠ .get idx) → t.status = s.status)

/-- 10_state.md R20, R32, R33: what a command does depends on the parameters, CONFIG, STATUS and the memories only: two
states that agree on these give the same response and agree on them afterwards. -/
def Obligations.CommandsDependOnTheBlockStateOnly : Prop :=
  ∀ (i : Instr) (s t : State), State.sameBlock s t →
    sameOutcome (fun s' t' => State.sameBlock s' t' ∧ s'.port = t'.port) (exec i s) (exec i t)

/-- The invariant holds right after reset, for every value of the parameters (10_state.md R24, R33). -/
def Obligations.ResetMeetsTheInvariant : Prop := ∀ p : Params, Inv (State.resetWith p)

/-- 10_state.md R24, R25, 30_encoding.md R73, 20_memory.md R51: every step keeps the invariant: CONFIG legal with its
reserved bits 0, STATUS legal, the memories within their depths and in canonical form, no light store without HAS_LIGHT,
and data 0 in every response that is not OK. -/
def Obligations.EveryStepKeepsTheInvariant : Prop :=
  ∀ s t : State, Inv s → step s = .next t → Inv t

/-- 20_memory.md R62, 60_exceptions.md R182, 30_encoding.md R86: from a state that meets the invariant a step answers a
next state, unless the host has changed or withdrawn a command it offered; it never faults. The model's own: the refusal by
name (log 8), and that a reset ends the host's duty, so that nothing is owed after one (log 9). -/
def Obligations.StepAnswersUnlessTheHostBreaksItsDuty : Prop :=
  ∀ s : State, Inv s →
    (∃ t, step s = .next t) ∧ (s.nextEdge.rst = true ∨ s.offered = none ∨ s.offered = s.nextEdge.offer) ∨
      step s = .refused .commandNotHeld ∧ s.nextEdge.rst = false ∧ s.offered ≠ none ∧ s.offered ≠ s.nextEdge.offer

/-- 10_state.md R33, 70_reset_and_hazards.md R210: the reset values, for every value of the parameters. -/
def Obligations.ResetValues : Prop :=
  ∀ p : Params, (State.resetWith p).config = 0x00010104 ∧ (State.resetWith p).bpv = 4 ∧ (State.resetWith p).palEn = true ∧
    (State.resetWith p).palLen = 1 ∧ (State.resetWith p).status = ⟨false, 0#4, 0#16⟩ ∧
    (State.resetWith p).statusReg =
      (if p.hasLight then if p.lightByteOrder = .big then 0x0000000300000000 else 0x0000000100000000 else 0) ∧
    (∀ a, (State.resetWith p).ws.read a = 0) ∧ (∀ a, (State.resetWith p).pal.read a = 0) ∧
    (∀ a, (State.resetWith p).ls.read a = 0) ∧ (State.resetWith p).port = .busy none

/-- 70_reset_and_hazards.md R213: an edge with `rst = 1` cancels what is in progress, gives no response for it, and leaves
exactly the reset state. The model's own: what the host has received and what is still to come is not the block's (log 4,
log 12), and the reset ends the host's duty to hold a command (log 9). -/
def Obligations.ResetCancelsWhateverIsInProgress : Prop :=
  ∀ (s : State) (e : Edge) (rest : List Edge), s.inputs = e :: rest → e.rst = true →
    step s = .next { State.resetWith s.params with inputs := rest, taken := s.taken } ∧
      s.cmdReady true = false ∧ s.rspValid true = false

/-- 70_reset_and_hazards.md R212: however many edges the block takes after reset, and whatever the host already drives, the
first command it can accept sees the whole reset state. The model's own: the block's choice to finish as a bit of an edge
(log 5), the pins as a list of edges (log 4), and that the host owes no command right after reset (log 9). -/
def Obligations.BlockBecomesReadyInTheResetState : Prop :=
  ∀ (p : Params) (es : List Edge) (e : Edge) (rest : List Edge), (∀ x ∈ es, x.waits) → e.rst = false → e.finish = true →
    heldOver none (es ++ [e]) = true →
    Sys2Proof.core.run (es.length + 1) { State.resetWith p with inputs := es ++ e :: rest } =
      .next { State.resetWith p with port := .ready, inputs := rest, offered := e.offer }

/-- 30_encoding.md R85, 10_state.md R30: while PORT is RESPONDING `cmd_ready` is 0 and the response is held stable until it
transfers; after the transfer PORT is READY. The model's own: that `cmd_ready` is then 1 at once (log 24), and the list of
the responses taken (log 12). -/
def Obligations.ResponseIsHeldUntilTaken : Prop :=
  ∀ (s t : State) (r : Response), s.port = .responding r → s.nextEdge.rst = false → step s = .next t →
    s.cmdReady false = false ∧ s.rspOffered false = some r ∧ State.sameBlock t s ∧
      if s.nextEdge.rspReady then t.port = .ready ∧ t.taken = r :: s.taken ∧ t.cmdReady false = true
      else t.port = .responding r ∧ t.taken = s.taken ∧ t.rspOffered false = some r

/-- 30_encoding.md R70, R84-R86, 00_scope.md R7, R12: a whole transaction on the signals is one atomic step. Whatever the
latency, however long the host leaves the response waiting, and whatever else it drives (a command held before, the next
command already offered, `rsp_ready` raised early), a command that transfers on a READY port ends with the state the atomic
step gives it and with exactly its response taken. The model's own: the pins as a list of edges (log 4), the latency as a
bit of an edge (log 5), that a READY port takes a command at once (log 24), and the list of the responses taken (log 12). -/
def Obligations.SignalTransactionIsOneAtomicStep : Prop :=
  ∀ (s t : State) (c : Command) (e f g : Edge) (busy waiting rest : List Edge),
    s.port = .ready → (s.offered = none ∨ s.offered = some c) → e.rst = false → e.offer = some c →
    (∀ x ∈ busy, x.waits) → f.rst = false → f.finish = true → (∀ x ∈ waiting, x.leaves) → g.rst = false →
    g.rspReady = true → heldOver none (busy ++ f :: (waiting ++ [g])) = true →
    s.inputs = e :: (busy ++ f :: (waiting ++ g :: rest)) → s.accept c = .next t →
    ∃ r : Response, t.port = .busy (some r) ∧
      Sys2Proof.core.run (busy.length + waiting.length + 3) s =
        .next { t with port := .ready, offered := g.offer, inputs := rest, taken := r :: s.taken }

/-- 00_scope.md R7, 60_exceptions.md R182: no run from a state that meets the invariant ends in a fault, whatever the host
drives. -/
def Obligations.NoRunFaults : Prop := ∀ (s : State) (n : Nat), Inv s → SafeFor n s

/-- 30_encoding.md R84, R85, 10_state.md R30, 70_reset_and_hazards.md R211: at every port state, `cmd_ready` is driven only
while it is READY and a response only while it is RESPONDING, neither while `rst = 1` (log 14); and what an edge without
reset does, whatever the host drives within its duty (R86). The model's own: that `cmd_ready` is 1 at every READY edge and
an offered command is accepted there (log 24), that the whole effect of an accepted command
happens at the edge of its transfer (00_scope.md R7, 20_memory.md R62; log 6), the edges (log 4), the bit `finish` (log 5),
and the list of the responses taken (log 12). -/
def Obligations.PortAtEveryEdge : Prop :=
  ∀ s : State,
    (∀ rst, s.cmdReady rst = true ↔ rst = false ∧ s.port = .ready) ∧
    (∀ rst r, s.rspOffered rst = some r ↔ rst = false ∧ s.port = .responding r) ∧
    (s.nextEdge.rst = false → s.offered = none ∨ s.offered = s.nextEdge.offer →
      (s.port = .ready → s.nextEdge.offer = none → step s = .next { s with inputs := s.inputs.tail, offered := none }) ∧
      (∀ c, s.port = .ready → s.nextEdge.offer = some c →
        step s = { s with inputs := s.inputs.tail, offered := none }.accept c) ∧
      (s.port = .busy none →
        step s = .next { s with
          inputs := s.inputs.tail, offered := s.nextEdge.offer,
          port := if s.nextEdge.finish then .ready else .busy none }) ∧
      (∀ r, s.port = .busy (some r) →
        step s = .next { s with
          inputs := s.inputs.tail, offered := s.nextEdge.offer,
          port := if s.nextEdge.finish then .responding r else .busy (some r) }) ∧
      (∀ r, s.port = .responding r →
        step s =
          if s.nextEdge.rspReady then
            .next { s with
              inputs := s.inputs.tail, offered := s.nextEdge.offer, port := .ready, taken := r :: s.taken }
          else .next { s with inputs := s.inputs.tail, offered := s.nextEdge.offer }))

/-- 00_scope.md R7, 10_state.md R32, 30_encoding.md R70: the machine's atomic step is the spec's
`step(params, state, command) -> (state', response)`, with the parameters an argument and with exactly one response; the
machine's reset is `reset(params)`; and no step of the machine changes the parameters it carries (log 1). -/
def Obligations.AtomicStepTakesTheParametersAsArguments : Prop :=
  (∀ (s t : State) (c : Command), s.accept c = .next t → ∃ r : Response,
      blockStep s.params s.toBlock c = .next (t.toBlock, some r) ∧
        t = { s with toBlock := t.toBlock, port := .busy (some r) }) ∧
    (∀ (s : State) (c : Command) (b : Block) (r : Option Response), blockStep s.params s.toBlock c = .next (b, r) →
      ∃ t : State, s.accept c = .next t ∧ t.toBlock = b ∧ t.port = .busy r) ∧
    (∀ (s : State) (c : Command), Inv s → ∃ (b : Block) (r : Response),
      blockStep s.params s.toBlock c = .next (b, some r)) ∧
    (∀ p : Params, (State.resetWith p).toBlock = Block.reset p ∧ (State.resetWith p).params = p) ∧
    ∀ s t : State, step s = .next t → t.params = s.params

/-- 43_config_host.md R157: the commands of one `from_parts`, with any parts, end in the same registers and memories in
whatever order the host issues them. That the host issues them all, also when CFG_WRITE is refused, is the model's choice
(log 22), as is what it writes for a palette too long for the fields (log 20). -/
def Obligations.FromPartsInAnyOrder : Prop :=
  ∀ (s : State) (b : BitVec 8) (words : List Word) (palette : Option (List Word)) (order : List Instr), Inv s →
    order.Perm (fromParts b words palette) →
    ∃ t u : State, execAll (fromParts b words palette) s = .next t ∧ execAll order s = .next u ∧ u.toBlock = t.toBlock

/-- 43_config_host.md R158, 60_exceptions.md R184: the readers give what the responses of CFG_READ, PAL_READ and WORD_READ
give: the width, the palette or its absence, and the active words. That a reader gives nothing in a halted block, where
these commands answer HALTED, is the model's choice (log 22). -/
def Obligations.ReadersAnswerFromTheCommands : Prop :=
  ∀ s : State, Inv s →
    (s.halted = true → s.bitsPerValue = none ∧ s.palette = none ∧ s.words = none) ∧
    (s.halted = false → s.bitsPerValue = some s.bpv ∧
      s.palette = some (if s.palEn = true then some ((List.range s.palLen).map s.pal.read) else none) ∧
      s.words = some ((List.range (64 * s.bpv)).map s.ws.read))
end

