-- ==== Sys2Proof/Laws/Operands.lean ====
section
/-! SUPPORT. Masks, CONFIG images and the latch of STATUS. -/

namespace Sys2Proof.Machine

@[simp] theorem ones_getLsbD (n k : Nat) : (ones n).getLsbD k = (decide (k < 64) && decide (k < n)) := by
  simp [ones, BitVec.getLsbD_ofNat, Nat.testBit_two_pow_sub_one]

@[simp] theorem ones_getElem (n k : Nat) (h : k < 64) : (ones n)[k] = decide (k < n) := by
  rw [← BitVec.getLsbD_eq_getElem, ones_getLsbD]
  simp [h]

/-- The fields of a CONFIG image do not depend on whether it is taken from the register or from a DATA word. -/
@[simp] theorem cfgBpv_setWidth {n : Nat} (d : BitVec 32) (h : 32 ≤ n) : cfgBpv (d.setWidth n) = cfgBpv d := by
  unfold cfgBpv
  congr 1
  ext k hk
  simp [BitVec.getElem_extractLsb', BitVec.getLsbD_setWidth]
  omega

@[simp] theorem cfgPalLen_setWidth {n : Nat} (d : BitVec 32) (h : 32 ≤ n) : cfgPalLen (d.setWidth n) = cfgPalLen d := by
  unfold cfgPalLen
  congr 1
  ext k hk
  simp [BitVec.getElem_extractLsb', BitVec.getLsbD_setWidth]
  omega

@[simp] theorem cfgPalEn_setWidth {n : Nat} (d : BitVec 32) (h : 32 ≤ n) : cfgPalEn (d.setWidth n) = cfgPalEn d := by
  simp [cfgPalEn, BitVec.getLsbD_setWidth]
  omega

/-- A legal image has its 32 upper bits 0, so the register that takes its low half holds the whole image. -/
theorem setWidth_setWidth_of_cfgLegal {d : Word} (h : cfgLegal d = true) : (d.setWidth 32).setWidth 64 = d := by
  have hm : d &&& ~~~cfgFieldMask = 0 := by
    by_contra hne
    rw [cfgLegal, if_pos hne] at h
    exact absurd h (by simp)
  have hmask : ∀ j : Fin 64, 32 ≤ j.1 → (~~~cfgFieldMask).getLsbD j.1 = true := by decide
  refine BitVec.eq_of_getLsbD_eq fun k hk => ?_
  by_cases hlt : k < 32
  · simp [hk, hlt]
  · have hd := congrArg (fun x => BitVec.getLsbD x k) hm
    have hk' : (~~~cfgFieldMask).getLsbD k = true := hmask ⟨k, hk⟩ (Nat.le_of_not_lt hlt)
    simp only [BitVec.getLsbD_and, hk', Bool.and_true, BitVec.ofNat_eq_ofNat, BitVec.getLsbD_zero] at hd
    simp [hlt, hd]

/-- What a legal CONFIG image satisfies (10_state.md R24). -/
theorem cfgLegal_bounds {d : Word} (h : cfgLegal d = true) :
    4 ≤ cfgBpv d ∧ cfgBpv d ≤ 13 ∧ (cfgPalEn d = false → cfgBpv d = 13 ∧ cfgPalLen d = 0) ∧
      (cfgPalEn d = true → 1 ≤ cfgPalLen d ∧ cfgPalLen d ≤ 2 ^ cfgBpv d ∧ cfgPalLen d ≤ 256) := by
  unfold cfgLegal at h
  split at h
  · simp at h
  split at h
  · simp at h
  rename_i hb
  simp only [Config.bpvMin, Config.bpvMax, not_or, Nat.not_lt] at hb
  refine ⟨hb.1, hb.2, ?_, ?_⟩ <;> intro he <;> simp [he] at h ⊢
  · exact h
  · exact ⟨h.1, h.2.1, h.2.2⟩

theorem State.bpv_bounds {s : State} (h : cfgLegal (s.config.setWidth 64) = true) : 4 ≤ s.bpv ∧ s.bpv ≤ 13 := by
  have := cfgLegal_bounds h
  simp only [cfgBpv_setWidth _ (Nat.le_of_ble_eq_true rfl : 32 ≤ 64)] at this
  exact ⟨this.1, this.2.1⟩

theorem State.palLen_le {s : State} (h : cfgLegal (s.config.setWidth 64) = true) : s.palLen ≤ 256 := by
  have := cfgLegal_bounds h
  simp only [cfgBpv_setWidth, cfgPalLen_setWidth, cfgPalEn_setWidth, Nat.reduceLeDiff] at this
  unfold State.palLen
  cases he : cfgPalEn s.config
  · rw [(this.2.2.1 he).2]; omega
  · exact (this.2.2.2 he).2.2

@[simp] theorem Status.latch_running {st : Status} (h : st.fatal = false) (code : StatusCode) (idx : Index) :
    st.latch code idx = ⟨true, code.code, idx⟩ := by simp [Status.latch, h]

@[simp] theorem Status.latch_halted {st : Status} (h : st.fatal = true) (code : StatusCode) (idx : Index) :
    st.latch code idx = st := by simp [Status.latch, h]

end Sys2Proof.Machine
end

