-- ==== Sys2Proof/Laws/Store.lean ====
section
/-! SUPPORT. The laws of a memory: read after write, the canonical form, and extensionality. -/

namespace Sys2Proof.Machine

@[simp] theorem Store.read_nil (a : Nat) : Store.read [] a = 0 := rfl

@[simp] theorem Store.read_zeroed (a : Nat) : Store.zeroed.read a = 0 := rfl

/-- Every key of the list is above `a`. -/
def Store.above (a : Nat) (st : Store) : Prop := ∀ c ∈ st, a < c.1

theorem Store.read_of_above {st : Store} {a : Nat} (h : st.above a) : st.read a = 0 := by
  induction st with
  | nil => rfl
  | cons c rest ih =>
    have hc : a < c.1 := h c (by simp)
    have hr : Store.above a rest := fun d hd => h d (by simp [hd])
    simp [Store.read, Nat.ne_of_gt hc, ih hr]

/-- The canonical form of a list: rising keys and no blank word. -/
def Store.canonical (st : Store) : Prop :=
  st.Pairwise (fun c d => c.1 < d.1) ∧ ∀ c ∈ st, c.2 ≠ Store.blank

theorem Store.wf.canonical {depth : Nat} {st : Store} (h : st.wf depth) : st.canonical :=
  ⟨h.1, fun c hc => (h.2 c hc).2⟩

theorem Store.canonical.tail {c : Nat × Word} {rest : Store} (h : Store.canonical (c :: rest)) :
    Store.canonical rest :=
  ⟨(List.pairwise_cons.1 h.1).2, fun d hd => h.2 d (by simp [hd])⟩

theorem Store.canonical.head_above {c : Nat × Word} {rest : Store} (h : Store.canonical (c :: rest)) :
    Store.above c.1 rest :=
  (List.pairwise_cons.1 h.1).1

theorem Store.above.trans {st : Store} {a b : Nat} (h : st.above b) (hab : a < b) : st.above a :=
  fun c hc => Nat.lt_trans hab (h c hc)

/-- Reading after writing, whatever the two addresses. -/
theorem Store.read_write {st : Store} (h : st.canonical) (a b : Nat) (v : Word) :
    (st.write a v).read b = if a = b then v else st.read b := by
  induction st with
  | nil =>
    by_cases hv : v = 0#64 <;> by_cases hab : a = b <;> simp [Store.write, Store.read, Store.blank, hv, hab]
  | cons c rest ih =>
    obtain ⟨k, u⟩ := c
    have hk : Store.above k rest := h.head_above
    have hka : a = k → Store.read rest a = 0#64 := fun e => e ▸ Store.read_of_above hk
    have hlt : a < k → Store.read rest a = 0#64 := fun e => Store.read_of_above (hk.trans e)
    rcases Nat.lt_trichotomy a k with hl | he | hg
    · have hne : ¬ k = a := by omega
      by_cases hv : v = 0#64 <;> by_cases hab : a = b
      · subst hab; simp [Store.write, Store.read, Store.blank, hl, hv, hne, hlt hl]
      · simp [Store.write, Store.blank, hl, hv, hab]
      · subst hab; simp [Store.write, Store.read, Store.blank, hl, hv]
      · simp [Store.write, Store.read, Store.blank, hl, hv, hab]
    · subst he
      by_cases hv : v = 0#64 <;> by_cases hab : a = b
      · subst hab; simp [Store.write, Store.blank, hv, hka rfl]
      · simp [Store.write, Store.read, Store.blank, hv, hab]
      · subst hab; simp [Store.write, Store.read, Store.blank, hv]
      · simp [Store.write, Store.read, Store.blank, hv, hab]
    · have h1 : ¬ a < k := by omega
      have h2 : ¬ a = k := by omega
      have hw : Store.write ((k, u) :: rest) a v = (k, u) :: Store.write rest a v := by simp [Store.write, h1, h2]
      rw [hw]
      by_cases hkb : k = b
      · have : ¬ a = b := by omega
        simp [Store.read, hkb, this]
      · simp [Store.read, hkb, ih h.tail]

theorem Store.read_write_same {st : Store} (h : st.canonical) (a : Nat) (v : Word) : (st.write a v).read a = v := by
  simp [Store.read_write h]

theorem Store.read_write_other {st : Store} (h : st.canonical) {a b : Nat} (hab : a ≠ b) (v : Word) :
    (st.write a v).read b = st.read b := by
  simp [Store.read_write h, hab]

/-- What a write lists comes from the written word or from the old list. -/
theorem Store.mem_write {st : Store} {a : Nat} {v : Word} {c : Nat × Word} (h : c ∈ st.write a v) :
    (c = (a, v) ∧ v ≠ Store.blank) ∨ c ∈ st := by
  induction st with
  | nil =>
    by_cases hv : v = Store.blank <;> simp_all [Store.write]
  | cons d rest ih =>
    obtain ⟨k, u⟩ := d
    simp only [Store.write] at h
    split at h
    · split at h
      · exact .inr h
      · rcases List.mem_cons.1 h with rfl | h
        · exact .inl ⟨rfl, ‹_›⟩
        · exact .inr h
    · split at h
      · split at h
        · exact .inr (List.mem_cons_of_mem _ h)
        · rcases List.mem_cons.1 h with rfl | h
          · exact .inl ⟨rfl, ‹_›⟩
          · exact .inr (List.mem_cons_of_mem _ h)
      · rcases List.mem_cons.1 h with rfl | h
        · exact .inr (List.mem_cons_self ..)
        · exact (ih h).imp_right (List.mem_cons_of_mem _)

theorem Store.write_canonical {st : Store} (h : st.canonical) (a : Nat) (v : Word) : (st.write a v).canonical := by
  refine ⟨?_, fun c hc => ?_⟩
  · induction st with
    | nil => by_cases hv : v = 0#64 <;> simp [Store.write, Store.blank, hv]
    | cons d rest ih =>
      obtain ⟨k, u⟩ := d
      have hk : Store.above k rest := h.head_above
      rcases Nat.lt_trichotomy a k with hl | he | hg
      · by_cases hv : v = 0#64
        · simpa [Store.write, Store.blank, hl, hv] using h.1
        · have ha : Store.above a ((k, u) :: rest) := by
            intro c hc
            rcases List.mem_cons.1 hc with rfl | hc
            · exact hl
            · exact Nat.lt_trans hl (hk c hc)
          rw [Store.write, if_pos hl, if_neg hv]
          exact List.pairwise_cons.2 ⟨ha, h.1⟩
      · subst he
        by_cases hv : v = 0#64
        · simpa [Store.write, Store.blank, hv] using h.tail.1
        · rw [Store.write, if_neg (Nat.lt_irrefl a), if_pos rfl, if_neg hv]
          exact List.pairwise_cons.2 ⟨hk, h.tail.1⟩
      · have h1 : ¬ a < k := by omega
        have h2 : ¬ a = k := by omega
        have hw : Store.write ((k, u) :: rest) a v = (k, u) :: Store.write rest a v := by simp [Store.write, h1, h2]
        rw [hw]
        refine List.pairwise_cons.2 ⟨fun c hc => ?_, ih h.tail⟩
        rcases Store.mem_write hc with ⟨rfl, _⟩ | hc
        · exact hg
        · exact hk c hc
  · rcases Store.mem_write hc with ⟨rfl, hv⟩ | hc
    · exact hv
    · exact h.2 c hc

/-- Every write at an existing address keeps the canonical form. -/
theorem Store.write_wf {depth : Nat} {st : Store} (h : st.wf depth) {a : Nat} (ha : a < depth) (v : Word) :
    (st.write a v).wf depth := by
  have hc := Store.write_canonical h.canonical a v
  refine ⟨hc.1, fun c hm => ⟨?_, hc.2 c hm⟩⟩
  rcases Store.mem_write hm with ⟨rfl, _⟩ | hm
  · exact ha
  · exact (h.2 c hm).1

theorem Store.zeroed_wf (depth : Nat) : Store.zeroed.wf depth := by simp [Store.zeroed, Store.wf]

/-- A memory in canonical form is determined by what its words read as. -/
theorem Store.ext {st tt : Store} (hs : st.canonical) (ht : tt.canonical) (h : ∀ a, st.read a = tt.read a) : st = tt := by
  induction st generalizing tt with
  | nil =>
    cases tt with
    | nil => rfl
    | cons d rest => exact absurd (by simpa [Store.read] using (h d.1).symm) (ht.2 d (by simp))
  | cons c rest ih =>
    cases tt with
    | nil => exact absurd (by simpa [Store.read] using h c.1) (hs.2 c (by simp))
    | cons d rest' =>
      obtain ⟨k, u⟩ := c
      obtain ⟨l, w⟩ := d
      have hk : Store.above k rest := hs.head_above
      have hl : Store.above l rest' := ht.head_above
      have hu : u ≠ 0 := hs.2 (k, u) (by simp)
      have hw : w ≠ 0 := ht.2 (l, w) (by simp)
      have hkl : k = l := by
        rcases Nat.lt_trichotomy k l with hlt | he | hgt
        · have := h k
          simp [Store.read, Nat.ne_of_gt hlt, Store.read_of_above (hl.trans hlt)] at this
          exact absurd this hu
        · exact he
        · have := h l
          simp [Store.read, Nat.ne_of_gt hgt, Store.read_of_above (hk.trans hgt)] at this
          exact absurd this.symm hw
      subst hkl
      have huw : u = w := by simpa [Store.read] using h k
      subst huw
      have : rest = rest' := by
        refine ih hs.tail ht.tail fun a => ?_
        by_cases ha : k = a
        · subst ha; rw [Store.read_of_above hk, Store.read_of_above hl]
        · simpa [Store.read, ha] using h a
      rw [this]

end Sys2Proof.Machine
end

