-- ==== Sys2Proof/Laws/Codec.lean ====
section
/-! SUPPORT. The codec's functions seen through the flat bit string of the Word Store (40_codec.md R96). -/

namespace Sys2Proof.Machine

theorem place_straddle_iff {b : Nat} (hb : 1 ≤ b) (hb' : b ≤ 64) (i : Nat) :
    (place b i).straddle = true ↔ 64 < b * i % 64 + b := by
  simp only [place, Place.straddle, bne_iff_ne, ne_eq]
  omega

theorem place_w1_straddle {b : Nat} (hb : 1 ≤ b) (hb' : b ≤ 64) {i : Nat} (h : 64 < b * i % 64 + b) :
    (b * i + b - 1) / 64 = b * i / 64 + 1 := by omega

/-- Element `i` at a legal width lies in the active words (40_codec.md R91). -/
theorem place_w1_lt {b i : Nat} (hb : 1 ≤ b) (hi : i < 4096) : (place b i).w1 < 64 * b := by
  have : b * i ≤ b * 4095 := Nat.mul_le_mul_left b (by omega)
  simp only [place]
  omega

theorem place_w0_le (b i : Nat) (hb : 1 ≤ b) : (place b i).w0 ≤ (place b i).w1 := by
  simp only [place]
  omega

theorem State.elementExists_of_legal {s : State} (h : cfgLegal (s.config.setWidth 64) = true) {i : Nat} (hi : i < 4096) :
    s.elementExists i = true := by
  have hb := State.bpv_bounds h
  have := place_w1_lt (b := s.bpv) (i := i) (by omega) hi
  simp only [State.elementExists, decide_eq_true_eq, Config.wsDepth]
  omega

theorem getRaw_single {b i : Nat} (h : (place b i).straddle = false) (ws : Store) :
    getRaw b ws i = (ws.read (b * i / 64) >>> (b * i % 64)) &&& ones b := by
  simp only [getRaw, h, if_true]
  rfl

theorem getRaw_straddle {b i : Nat} (h : (place b i).straddle = true) (ws : Store) :
    getRaw b ws i =
      (ws.read (b * i / 64) >>> (b * i % 64) ||| ws.read ((b * i + b - 1) / 64) <<< (64 - b * i % 64)) &&& ones b := by
  simp only [getRaw, h, Bool.true_eq_false, if_false]
  rfl

theorem setRaw_single {b i : Nat} (h : (place b i).straddle = false) (ws : Store) (v : Word) :
    setRaw b ws i v =
      ws.write (b * i / 64) (ws.read (b * i / 64) &&& ~~~(ones b <<< (b * i % 64)) ||| v <<< (b * i % 64)) := by
  simp only [setRaw, h, if_true]
  rfl

/-- The first of the two writes of a straddling element. -/
def setRawLow (b : Nat) (ws : Store) (i : Nat) (v : Word) : Store :=
  ws.write (b * i / 64)
    (ws.read (b * i / 64) &&& ones (b * i % 64) ||| (v &&& ones (64 - b * i % 64)) <<< (b * i % 64))

theorem setRaw_straddle {b i : Nat} (h : (place b i).straddle = true) (ws : Store) (v : Word) :
    setRaw b ws i v =
      (setRawLow b ws i v).write ((b * i + b - 1) / 64)
        ((setRawLow b ws i v).read ((b * i + b - 1) / 64) &&& ~~~ones (b - (64 - b * i % 64)) |||
          v >>> (64 - b * i % 64)) := by
  simp only [setRaw, h, Bool.true_eq_false, if_false]
  rfl

/-- GetRaw reads the element's bits of the flat string and nothing above them. -/
theorem getRaw_getLsbD {b : Nat} (hb : 1 ≤ b) (hb' : b ≤ 64) (ws : Store) (i k : Nat) :
    (getRaw b ws i).getLsbD k = (decide (k < b) && ws.flat (b * i + k)) := by
  by_cases hk : k < b
  swap
  · cases hs : (place b i).straddle
    · simp [getRaw_single hs, hk]
    · simp [getRaw_straddle hs, hk]
  have hk64 : k < 64 := by omega
  unfold Store.flat
  cases hs : (place b i).straddle
  · have hoff : ¬ 64 < b * i % 64 + b := by
      rw [← place_straddle_iff hb hb' i, hs]; simp
    have h1 : (b * i + k) / 64 = b * i / 64 := by omega
    have h2 : (b * i + k) % 64 = b * i % 64 + k := by omega
    simp [getRaw_single hs, hk, hk64, h1, h2]
  · have hoff := (place_straddle_iff hb hb' i).1 hs
    have hw1 := place_w1_straddle hb hb' hoff
    by_cases hlow : b * i % 64 + k < 64
    · have h1 : (b * i + k) / 64 = b * i / 64 := by omega
      have h2 : (b * i + k) % 64 = b * i % 64 + k := by omega
      have h3 : k < 64 - b * i % 64 := by omega
      simp [getRaw_straddle hs, hk, hk64, h1, h2, h3]
    · have h1 : (b * i + k) / 64 = b * i / 64 + 1 := by omega
      have h2 : (b * i + k) % 64 = k - (64 - b * i % 64) := by omega
      have h3 : ¬ k < 64 - b * i % 64 := by omega
      have h4 : (ws.read (b * i / 64)).getLsbD (b * i % 64 + k) = false :=
        BitVec.getLsbD_of_ge _ _ (by omega)
      have h5 : k - (64 - b * i % 64) < 64 := by omega
      simp [getRaw_straddle hs, hk, hk64, h1, h2, h3, h4, h5, hw1]

/-- Two addresses in two words: what the flat string reads after one word is written. -/
theorem Store.flat_write {st : Store} (h : st.canonical) (a p : Nat) (v : Word) :
    (st.write a v).flat p = if p / 64 = a then v.getLsbD (p % 64) else st.flat p := by
  unfold Store.flat
  rw [Store.read_write h]
  by_cases hp : p / 64 = a
  · simp [hp]
  · simp [hp, Ne.symm hp]

theorem getLsbD_of_lt_two_pow {v : Word} {b k : Nat} (hv : v.toNat < 2 ^ b) (hk : b ≤ k) : v.getLsbD k = false :=
  Nat.testBit_lt_two_pow (Nat.lt_of_lt_of_le hv (Nat.pow_le_pow_right (by omega) hk))

theorem getElem_of_lt_two_pow {v : Word} {b k : Nat} (hv : v.toNat < 2 ^ b) (hk : b ≤ k) (h : k < 64) : v[k] = false := by
  rw [← BitVec.getLsbD_eq_getElem, getLsbD_of_lt_two_pow hv hk]

/-- SetRaw sets the element's bits of the flat string and leaves every other bit. -/
theorem setRaw_flat {b : Nat} (hb : 1 ≤ b) (hb' : b ≤ 64) {ws : Store} (h : ws.canonical) (i : Nat) {v : Word}
    (hv : v.toNat < 2 ^ b) (p : Nat) :
    (setRaw b ws i v).flat p =
      if b * i ≤ p ∧ p < b * i + b then v.getLsbD (p - b * i) else ws.flat p := by
  have hp64 : p % 64 < 64 := Nat.mod_lt _ (by omega)
  cases hs : (place b i).straddle
  · have hoff : ¬ 64 < b * i % 64 + b := by
      rw [← place_straddle_iff hb hb' i, hs]; simp
    rw [setRaw_single hs, Store.flat_write h]
    by_cases hw : p / 64 = b * i / 64
    · by_cases hlo : b * i ≤ p
      · have e1 : ¬ p % 64 < b * i % 64 := by omega
        have e2 : p % 64 - b * i % 64 = p - b * i := by omega
        by_cases hhi : p < b * i + b
        · have e3 : p - b * i < b := by omega
          have e4 : p - b * i < 64 := by omega
          simp [hw, hlo, hhi, e1, e2, e3, e4, hp64]
        · have e3 : ¬ p - b * i < b := by omega
          simp [hw, hlo, hhi, e1, e2, e3, hp64, Store.flat, getElem_of_lt_two_pow hv (Nat.le_of_not_lt e3)]
      · have e1 : p % 64 < b * i % 64 := by omega
        simp [hw, hlo, e1, hp64, Store.flat]
    · have : ¬ (b * i ≤ p ∧ p < b * i + b) := by omega
      simp [hw, this]
  · have hoff := (place_straddle_iff hb hb' i).1 hs
    have hw1 := place_w1_straddle hb hb' hoff
    have hne : ¬ b * i / 64 = b * i / 64 + 1 := by omega
    rw [setRaw_straddle hs, setRawLow, Store.flat_write (Store.write_canonical h _ _), Store.flat_write h, hw1,
      Store.read_write_other h hne]
    by_cases hq1 : p / 64 = b * i / 64 + 1
    · by_cases hhi : p < b * i + b
      · have e1 : p % 64 < b - (64 - b * i % 64) := by omega
        have e2 : b * i ≤ p := by omega
        have e3 : 64 - b * i % 64 + p % 64 = p - b * i := by omega
        simp [hq1, hhi, e1, e2, e3, hp64]
      · have e1 : ¬ p % 64 < b - (64 - b * i % 64) := by omega
        have e4 : b ≤ 64 - b * i % 64 + p % 64 := by omega
        simp [hq1, hhi, e1, hp64, Store.flat, getLsbD_of_lt_two_pow hv e4]
    · by_cases hq0 : p / 64 = b * i / 64
      · by_cases hlo : b * i ≤ p
        · have e1 : ¬ p % 64 < b * i % 64 := by omega
          have e2 : p < b * i + b := by omega
          have e3 : p % 64 - b * i % 64 = p - b * i := by omega
          have e4 : p - b * i < 64 - b * i % 64 := by omega
          have e5 : p - b * i < 64 := by omega
          simp [hq0, hlo, e1, e2, e3, e4, e5, hp64]
        · have e1 : p % 64 < b * i % 64 := by omega
          simp [hq0, hlo, e1, hp64, Store.flat]
      · have : ¬ (b * i ≤ p ∧ p < b * i + b) := by omega
        simp [hq0, hq1, this]

theorem setRaw_canonical (b : Nat) {ws : Store} (h : ws.canonical) (i : Nat) (v : Word) : (setRaw b ws i v).canonical := by
  cases hs : (place b i).straddle
  · rw [setRaw_single hs]; exact Store.write_canonical h _ _
  · rw [setRaw_straddle hs]; exact Store.write_canonical (Store.write_canonical h _ _) _ _

theorem setRaw_wf {b depth : Nat} (hb : 1 ≤ b) {ws : Store} (h : ws.wf depth) {i : Nat} (hi : (place b i).w1 < depth)
    (v : Word) : (setRaw b ws i v).wf depth := by
  have h0 := Nat.lt_of_le_of_lt (place_w0_le b i hb) hi
  cases hs : (place b i).straddle
  · rw [setRaw_single hs]; exact Store.write_wf h h0 _
  · rw [setRaw_straddle hs]; exact Store.write_wf (Store.write_wf h h0 _) hi _

/-- SetRaw writes no word but those the element lies in. -/
theorem setRaw_read_other {b : Nat} {ws : Store} (h : ws.canonical) {i a : Nat} (v : Word) (h0 : a ≠ (place b i).w0)
    (h1 : a ≠ (place b i).w1) : (setRaw b ws i v).read a = ws.read a := by
  cases hs : (place b i).straddle
  · rw [setRaw_single hs]; exact Store.read_write_other h (Ne.symm h0) _
  · rw [setRaw_straddle hs]
    exact (Store.read_write_other (Store.write_canonical h _ _) (Ne.symm h1) _).trans
      (Store.read_write_other h (Ne.symm h0) _)

/-- Two memories in canonical form with the same flat bits are equal. -/
theorem Store.ext_flat {st tt : Store} (hs : st.canonical) (ht : tt.canonical) (h : ∀ p, st.flat p = tt.flat p) :
    st = tt := by
  refine Store.ext hs ht fun a => BitVec.eq_of_getLsbD_eq fun k hk => ?_
  have e1 : (64 * a + k) / 64 = a := by omega
  have e2 : (64 * a + k) % 64 = k := by omega
  simpa [Store.flat, e1, e2] using h (64 * a + k)

end Sys2Proof.Machine
end

