-- ==== Sys2Proof/Laws/PerInstr.lean ====
section
/-! SUPPORT. Per-instruction families: `EncodingFields` says what the fields of each command's words are, read as the
decoder reads them (30_encoding.md R71). -/

namespace Sys2Proof.Laws

theorem opField_commandWord (op : BitVec 4) (idx : Index) : opField (commandWord op idx) = op := by
  refine BitVec.eq_of_getLsbD_eq fun k hk => ?_
  have h1 : 28 + k < 32 := by omega
  have h2 : idx.getLsbD (28 + k) = false := BitVec.getLsbD_of_ge _ _ (by omega)
  simp [opField, commandWord, hk, h1, h2]

theorem rsvField_commandWord (op : BitVec 4) (idx : Index) : rsvField (commandWord op idx) = 0 := by
  refine BitVec.eq_of_getLsbD_eq fun k hk => ?_
  have h1 : 16 + k < 28 := by omega
  simp [rsvField, commandWord, h1]

theorem idxField_commandWord (op : BitVec 4) (idx : Index) : idxField (commandWord op idx) = idx := by
  refine BitVec.eq_of_getLsbD_eq fun k hk => ?_
  have h1 : k < 28 := by omega
  have h2 : k < 32 := by omega
  simp [idxField, commandWord, hk, h1, h2]

/-- The fields of the words the encoder writes. -/
def EncodingFields.Statement (i : Instr) : Prop :=
  opField (encode i).word = i.opcode ∧ rsvField (encode i).word = 0 ∧ idxField (encode i).word = i.index ∧
    (encode i).data = i.operand

theorem encodingFields_all (i : Instr) : EncodingFields.Statement i :=
  ⟨opField_commandWord _ _, rsvField_commandWord _ _, idxField_commandWord _ _, rfl⟩

theorem EncodingFields.getRaw (idx : Index) : EncodingFields.Statement (.getRaw idx) := encodingFields_all _
theorem EncodingFields.setRaw (idx : Index) (data : Word) : EncodingFields.Statement (.setRaw idx data) := encodingFields_all _
theorem EncodingFields.get (idx : Index) : EncodingFields.Statement (.get idx) := encodingFields_all _
theorem EncodingFields.lightGet (idx : Index) : EncodingFields.Statement (.lightGet idx) := encodingFields_all _
theorem EncodingFields.wordRead (idx : Index) : EncodingFields.Statement (.wordRead idx) := encodingFields_all _
theorem EncodingFields.wordWrite (idx : Index) (data : Word) : EncodingFields.Statement (.wordWrite idx data) := encodingFields_all _
theorem EncodingFields.palRead (idx : Index) : EncodingFields.Statement (.palRead idx) := encodingFields_all _
theorem EncodingFields.palWrite (idx : Index) (data : Word) : EncodingFields.Statement (.palWrite idx data) := encodingFields_all _
theorem EncodingFields.cfgRead : EncodingFields.Statement (.cfgRead) := encodingFields_all _
theorem EncodingFields.cfgWrite (data : Word) : EncodingFields.Statement (.cfgWrite data) := encodingFields_all _
theorem EncodingFields.initEmpty : EncodingFields.Statement (.initEmpty) := encodingFields_all _
theorem EncodingFields.statusRead : EncodingFields.Statement (.statusRead) := encodingFields_all _
theorem EncodingFields.lwordRead (idx : Index) : EncodingFields.Statement (.lwordRead idx) := encodingFields_all _
theorem EncodingFields.lwordWrite (idx : Index) (data : Word) : EncodingFields.Statement (.lwordWrite idx data) := encodingFields_all _

end Sys2Proof.Laws
end

