-- ==== Sys2Proof/Laws/Decode.lean ====
section
/-! SUPPORT. The fields of a command word as numbers, and the two ways decoding a command can end. -/

namespace Sys2Proof.Machine

theorem opField_toNat (c : Command) : (opField c.word).toNat = opNumber c := by
  have := c.word.isLt
  simp only [opField, opNumber, BitVec.extractLsb'_toNat, Nat.shiftRight_eq_div_pow]
  omega

theorem rsvField_eq_zero (c : Command) : rsvField c.word = 0 ↔ rsvNumber c = 0 := by
  rw [← BitVec.toNat_inj]
  simp [rsvField, rsvNumber, Nat.shiftRight_eq_div_pow]

theorem idxField_toNat (c : Command) : (idxField c.word).toNat = idxNumber c := by
  simp [idxField, idxNumber]

theorem idxField_eq_zero (c : Command) : idxField c.word = 0 ↔ idxNumber c = 0 := by
  rw [← BitVec.toNat_inj, idxField_toNat]
  simp

theorem opNumber_lt (c : Command) : opNumber c < 16 := by
  have := c.word.isLt
  unfold opNumber
  omega

/-- What a decoded command keeps of the words it came from. -/
structure DecodedAs (hasLight : Bool) (c : Command) (i : Instr) : Prop where
  opcode : i.opcode.toNat = opNumber c
  reserved : rsvNumber c = 0
  index : i.index.toNat = idxNumber c
  wellFormed : i.wellFormed hasLight = true
  operand : i.operand = c.data ∨ i.operand = 0#64 ∧ opNumber c ∉ [0x2, 0x6, 0x8, 0xA, 0xE]

/-- Decoding ends in an error for the illegal words, and in a command that keeps the fields for the others. -/
theorem decode_cases (hasLight : Bool) (c : Command) :
    (illegalWord hasLight c = true ∧ ∃ why, decode hasLight c = .error why) ∨
      (illegalWord hasLight c = false ∧ ∃ i, decode hasLight c = .ok i ∧ DecodedAs hasLight c i) := by
  by_cases hr : rsvNumber c = 0
  swap
  · exact .inl ⟨by simp [illegalWord, hr], .reservedBits, by rw [decode, if_neg (by rwa [rsvField_eq_zero])]⟩
  have hlt := opNumber_lt c
  have hz := idxField_eq_zero c
  have hi := idxField_toNat c
  suffices h : (illegalWord hasLight c = true ∧ ∃ why, decodeOpcode hasLight c = .error why) ∨
      (illegalWord hasLight c = false ∧ ∃ i, decodeOpcode hasLight c = .ok i ∧ i.opcode.toNat = opNumber c ∧
        i.index.toNat = idxNumber c ∧ i.wellFormed hasLight = true ∧
        (i.operand = c.data ∨ i.operand = 0#64 ∧ opNumber c ∉ [0x2, 0x6, 0x8, 0xA, 0xE])) by
    rw [decode, if_pos (by rwa [rsvField_eq_zero])]
    exact h.imp_right fun ⟨h0, i, hd, h1, h2, h3, h4⟩ => ⟨h0, i, hd, h1, hr, h2, h3, h4⟩
  rw [decodeOpcode, opField_toNat]
  generalize ho : opNumber c = o at hlt
  interval_cases o <;> cases hasLight <;> by_cases h0 : idxNumber c = 0 <;>
    simp_all [illegalWord, decodeLight, decodeNoOperand, Instr.opcode, Instr.index, Instr.wellFormed, Instr.needsLight,
      Instr.operand]

end Sys2Proof.Machine
end

