-- ==== Sys2Proof/Laws/State.lean ====
section
/-! SUPPORT. Each field of State after each update, and what the accessors and the outcome of a response read. -/

namespace Sys2Proof.Machine

@[simp] theorem nElem_eq : Config.nElem = 4096 := rfl
@[simp] theorem wsDepth_eq : Config.wsDepth = 832 := rfl
@[simp] theorem palDepth_eq : Config.palDepth = 256 := rfl
@[simp] theorem lsDepth_eq : Config.lsDepth = 256 := rfl

@[simp] theorem State.setConfig_config (s : State) (v : BitVec 32) : (s.setConfig v).config = v := rfl
@[simp] theorem State.setConfig_status (s : State) (v : BitVec 32) : (s.setConfig v).status = s.status := rfl
@[simp] theorem State.setConfig_ws (s : State) (v : BitVec 32) : (s.setConfig v).ws = s.ws := rfl
@[simp] theorem State.setConfig_pal (s : State) (v : BitVec 32) : (s.setConfig v).pal = s.pal := rfl
@[simp] theorem State.setConfig_ls (s : State) (v : BitVec 32) : (s.setConfig v).ls = s.ls := rfl
@[simp] theorem State.setConfig_port (s : State) (v : BitVec 32) : (s.setConfig v).port = s.port := rfl
@[simp] theorem State.setConfig_params (s : State) (v : BitVec 32) : (s.setConfig v).params = s.params := rfl
@[simp] theorem State.setConfig_inputs (s : State) (v : BitVec 32) : (s.setConfig v).inputs = s.inputs := rfl
@[simp] theorem State.setConfig_offered (s : State) (v : BitVec 32) : (s.setConfig v).offered = s.offered := rfl
@[simp] theorem State.setConfig_taken (s : State) (v : BitVec 32) : (s.setConfig v).taken = s.taken := rfl

@[simp] theorem State.setStatus_config (s : State) (v : Status) : (s.setStatus v).config = s.config := rfl
@[simp] theorem State.setStatus_status (s : State) (v : Status) : (s.setStatus v).status = v := rfl
@[simp] theorem State.setStatus_ws (s : State) (v : Status) : (s.setStatus v).ws = s.ws := rfl
@[simp] theorem State.setStatus_pal (s : State) (v : Status) : (s.setStatus v).pal = s.pal := rfl
@[simp] theorem State.setStatus_ls (s : State) (v : Status) : (s.setStatus v).ls = s.ls := rfl
@[simp] theorem State.setStatus_port (s : State) (v : Status) : (s.setStatus v).port = s.port := rfl
@[simp] theorem State.setStatus_params (s : State) (v : Status) : (s.setStatus v).params = s.params := rfl
@[simp] theorem State.setStatus_inputs (s : State) (v : Status) : (s.setStatus v).inputs = s.inputs := rfl
@[simp] theorem State.setStatus_offered (s : State) (v : Status) : (s.setStatus v).offered = s.offered := rfl
@[simp] theorem State.setStatus_taken (s : State) (v : Status) : (s.setStatus v).taken = s.taken := rfl

@[simp] theorem State.setWs_config (s : State) (v : Store) : (s.setWs v).config = s.config := rfl
@[simp] theorem State.setWs_status (s : State) (v : Store) : (s.setWs v).status = s.status := rfl
@[simp] theorem State.setWs_ws (s : State) (v : Store) : (s.setWs v).ws = v := rfl
@[simp] theorem State.setWs_pal (s : State) (v : Store) : (s.setWs v).pal = s.pal := rfl
@[simp] theorem State.setWs_ls (s : State) (v : Store) : (s.setWs v).ls = s.ls := rfl
@[simp] theorem State.setWs_port (s : State) (v : Store) : (s.setWs v).port = s.port := rfl
@[simp] theorem State.setWs_params (s : State) (v : Store) : (s.setWs v).params = s.params := rfl
@[simp] theorem State.setWs_inputs (s : State) (v : Store) : (s.setWs v).inputs = s.inputs := rfl
@[simp] theorem State.setWs_offered (s : State) (v : Store) : (s.setWs v).offered = s.offered := rfl
@[simp] theorem State.setWs_taken (s : State) (v : Store) : (s.setWs v).taken = s.taken := rfl

@[simp] theorem State.setPal_config (s : State) (v : Store) : (s.setPal v).config = s.config := rfl
@[simp] theorem State.setPal_status (s : State) (v : Store) : (s.setPal v).status = s.status := rfl
@[simp] theorem State.setPal_ws (s : State) (v : Store) : (s.setPal v).ws = s.ws := rfl
@[simp] theorem State.setPal_pal (s : State) (v : Store) : (s.setPal v).pal = v := rfl
@[simp] theorem State.setPal_ls (s : State) (v : Store) : (s.setPal v).ls = s.ls := rfl
@[simp] theorem State.setPal_port (s : State) (v : Store) : (s.setPal v).port = s.port := rfl
@[simp] theorem State.setPal_params (s : State) (v : Store) : (s.setPal v).params = s.params := rfl
@[simp] theorem State.setPal_inputs (s : State) (v : Store) : (s.setPal v).inputs = s.inputs := rfl
@[simp] theorem State.setPal_offered (s : State) (v : Store) : (s.setPal v).offered = s.offered := rfl
@[simp] theorem State.setPal_taken (s : State) (v : Store) : (s.setPal v).taken = s.taken := rfl

@[simp] theorem State.setLs_config (s : State) (v : Store) : (s.setLs v).config = s.config := rfl
@[simp] theorem State.setLs_status (s : State) (v : Store) : (s.setLs v).status = s.status := rfl
@[simp] theorem State.setLs_ws (s : State) (v : Store) : (s.setLs v).ws = s.ws := rfl
@[simp] theorem State.setLs_pal (s : State) (v : Store) : (s.setLs v).pal = s.pal := rfl
@[simp] theorem State.setLs_ls (s : State) (v : Store) : (s.setLs v).ls = v := rfl
@[simp] theorem State.setLs_port (s : State) (v : Store) : (s.setLs v).port = s.port := rfl
@[simp] theorem State.setLs_params (s : State) (v : Store) : (s.setLs v).params = s.params := rfl
@[simp] theorem State.setLs_inputs (s : State) (v : Store) : (s.setLs v).inputs = s.inputs := rfl
@[simp] theorem State.setLs_offered (s : State) (v : Store) : (s.setLs v).offered = s.offered := rfl
@[simp] theorem State.setLs_taken (s : State) (v : Store) : (s.setLs v).taken = s.taken := rfl

@[simp] theorem State.setPort_config (s : State) (v : Port) : (s.setPort v).config = s.config := rfl
@[simp] theorem State.setPort_status (s : State) (v : Port) : (s.setPort v).status = s.status := rfl
@[simp] theorem State.setPort_ws (s : State) (v : Port) : (s.setPort v).ws = s.ws := rfl
@[simp] theorem State.setPort_pal (s : State) (v : Port) : (s.setPort v).pal = s.pal := rfl
@[simp] theorem State.setPort_ls (s : State) (v : Port) : (s.setPort v).ls = s.ls := rfl
@[simp] theorem State.setPort_port (s : State) (v : Port) : (s.setPort v).port = v := rfl
@[simp] theorem State.setPort_params (s : State) (v : Port) : (s.setPort v).params = s.params := rfl
@[simp] theorem State.setPort_inputs (s : State) (v : Port) : (s.setPort v).inputs = s.inputs := rfl
@[simp] theorem State.setPort_offered (s : State) (v : Port) : (s.setPort v).offered = s.offered := rfl
@[simp] theorem State.setPort_taken (s : State) (v : Port) : (s.setPort v).taken = s.taken := rfl

@[simp] theorem State.setInputs_config (s : State) (v : List Edge) : (s.setInputs v).config = s.config := rfl
@[simp] theorem State.setInputs_status (s : State) (v : List Edge) : (s.setInputs v).status = s.status := rfl
@[simp] theorem State.setInputs_ws (s : State) (v : List Edge) : (s.setInputs v).ws = s.ws := rfl
@[simp] theorem State.setInputs_pal (s : State) (v : List Edge) : (s.setInputs v).pal = s.pal := rfl
@[simp] theorem State.setInputs_ls (s : State) (v : List Edge) : (s.setInputs v).ls = s.ls := rfl
@[simp] theorem State.setInputs_port (s : State) (v : List Edge) : (s.setInputs v).port = s.port := rfl
@[simp] theorem State.setInputs_params (s : State) (v : List Edge) : (s.setInputs v).params = s.params := rfl
@[simp] theorem State.setInputs_inputs (s : State) (v : List Edge) : (s.setInputs v).inputs = v := rfl
@[simp] theorem State.setInputs_offered (s : State) (v : List Edge) : (s.setInputs v).offered = s.offered := rfl
@[simp] theorem State.setInputs_taken (s : State) (v : List Edge) : (s.setInputs v).taken = s.taken := rfl

@[simp] theorem State.setOffered_config (s : State) (v : Option Command) : (s.setOffered v).config = s.config := rfl
@[simp] theorem State.setOffered_status (s : State) (v : Option Command) : (s.setOffered v).status = s.status := rfl
@[simp] theorem State.setOffered_ws (s : State) (v : Option Command) : (s.setOffered v).ws = s.ws := rfl
@[simp] theorem State.setOffered_pal (s : State) (v : Option Command) : (s.setOffered v).pal = s.pal := rfl
@[simp] theorem State.setOffered_ls (s : State) (v : Option Command) : (s.setOffered v).ls = s.ls := rfl
@[simp] theorem State.setOffered_port (s : State) (v : Option Command) : (s.setOffered v).port = s.port := rfl
@[simp] theorem State.setOffered_params (s : State) (v : Option Command) : (s.setOffered v).params = s.params := rfl
@[simp] theorem State.setOffered_inputs (s : State) (v : Option Command) : (s.setOffered v).inputs = s.inputs := rfl
@[simp] theorem State.setOffered_offered (s : State) (v : Option Command) : (s.setOffered v).offered = v := rfl
@[simp] theorem State.setOffered_taken (s : State) (v : Option Command) : (s.setOffered v).taken = s.taken := rfl

@[simp] theorem State.setTaken_config (s : State) (v : List Response) : (s.setTaken v).config = s.config := rfl
@[simp] theorem State.setTaken_status (s : State) (v : List Response) : (s.setTaken v).status = s.status := rfl
@[simp] theorem State.setTaken_ws (s : State) (v : List Response) : (s.setTaken v).ws = s.ws := rfl
@[simp] theorem State.setTaken_pal (s : State) (v : List Response) : (s.setTaken v).pal = s.pal := rfl
@[simp] theorem State.setTaken_ls (s : State) (v : List Response) : (s.setTaken v).ls = s.ls := rfl
@[simp] theorem State.setTaken_port (s : State) (v : List Response) : (s.setTaken v).port = s.port := rfl
@[simp] theorem State.setTaken_params (s : State) (v : List Response) : (s.setTaken v).params = s.params := rfl
@[simp] theorem State.setTaken_inputs (s : State) (v : List Response) : (s.setTaken v).inputs = s.inputs := rfl
@[simp] theorem State.setTaken_offered (s : State) (v : List Response) : (s.setTaken v).offered = s.offered := rfl
@[simp] theorem State.setTaken_taken (s : State) (v : List Response) : (s.setTaken v).taken = v := rfl

@[simp] theorem State.setConfig_halted (s : State) (v : BitVec 32) : (s.setConfig v).halted = s.halted := rfl
@[simp] theorem State.setConfig_statusReg (s : State) (v : BitVec 32) : (s.setConfig v).statusReg = s.statusReg := rfl
@[simp] theorem State.setStatus_bpv (s : State) (v : Status) : (s.setStatus v).bpv = s.bpv := rfl
@[simp] theorem State.setStatus_palEn (s : State) (v : Status) : (s.setStatus v).palEn = s.palEn := rfl
@[simp] theorem State.setStatus_palLen (s : State) (v : Status) : (s.setStatus v).palLen = s.palLen := rfl
@[simp] theorem State.setWs_bpv (s : State) (v : Store) : (s.setWs v).bpv = s.bpv := rfl
@[simp] theorem State.setWs_palEn (s : State) (v : Store) : (s.setWs v).palEn = s.palEn := rfl
@[simp] theorem State.setWs_palLen (s : State) (v : Store) : (s.setWs v).palLen = s.palLen := rfl
@[simp] theorem State.setWs_halted (s : State) (v : Store) : (s.setWs v).halted = s.halted := rfl
@[simp] theorem State.setWs_statusReg (s : State) (v : Store) : (s.setWs v).statusReg = s.statusReg := rfl
@[simp] theorem State.setPal_bpv (s : State) (v : Store) : (s.setPal v).bpv = s.bpv := rfl
@[simp] theorem State.setPal_palEn (s : State) (v : Store) : (s.setPal v).palEn = s.palEn := rfl
@[simp] theorem State.setPal_palLen (s : State) (v : Store) : (s.setPal v).palLen = s.palLen := rfl
@[simp] theorem State.setPal_halted (s : State) (v : Store) : (s.setPal v).halted = s.halted := rfl
@[simp] theorem State.setPal_statusReg (s : State) (v : Store) : (s.setPal v).statusReg = s.statusReg := rfl
@[simp] theorem State.setLs_bpv (s : State) (v : Store) : (s.setLs v).bpv = s.bpv := rfl
@[simp] theorem State.setLs_palEn (s : State) (v : Store) : (s.setLs v).palEn = s.palEn := rfl
@[simp] theorem State.setLs_palLen (s : State) (v : Store) : (s.setLs v).palLen = s.palLen := rfl
@[simp] theorem State.setLs_halted (s : State) (v : Store) : (s.setLs v).halted = s.halted := rfl
@[simp] theorem State.setLs_statusReg (s : State) (v : Store) : (s.setLs v).statusReg = s.statusReg := rfl
@[simp] theorem State.setPort_bpv (s : State) (v : Port) : (s.setPort v).bpv = s.bpv := rfl
@[simp] theorem State.setPort_palEn (s : State) (v : Port) : (s.setPort v).palEn = s.palEn := rfl
@[simp] theorem State.setPort_palLen (s : State) (v : Port) : (s.setPort v).palLen = s.palLen := rfl
@[simp] theorem State.setPort_halted (s : State) (v : Port) : (s.setPort v).halted = s.halted := rfl
@[simp] theorem State.setPort_statusReg (s : State) (v : Port) : (s.setPort v).statusReg = s.statusReg := rfl
@[simp] theorem State.setInputs_bpv (s : State) (v : List Edge) : (s.setInputs v).bpv = s.bpv := rfl
@[simp] theorem State.setInputs_palEn (s : State) (v : List Edge) : (s.setInputs v).palEn = s.palEn := rfl
@[simp] theorem State.setInputs_palLen (s : State) (v : List Edge) : (s.setInputs v).palLen = s.palLen := rfl
@[simp] theorem State.setInputs_halted (s : State) (v : List Edge) : (s.setInputs v).halted = s.halted := rfl
@[simp] theorem State.setInputs_statusReg (s : State) (v : List Edge) : (s.setInputs v).statusReg = s.statusReg := rfl
@[simp] theorem State.setOffered_bpv (s : State) (v : Option Command) : (s.setOffered v).bpv = s.bpv := rfl
@[simp] theorem State.setOffered_palEn (s : State) (v : Option Command) : (s.setOffered v).palEn = s.palEn := rfl
@[simp] theorem State.setOffered_palLen (s : State) (v : Option Command) : (s.setOffered v).palLen = s.palLen := rfl
@[simp] theorem State.setOffered_halted (s : State) (v : Option Command) : (s.setOffered v).halted = s.halted := rfl
@[simp] theorem State.setOffered_statusReg (s : State) (v : Option Command) : (s.setOffered v).statusReg = s.statusReg := rfl
@[simp] theorem State.setTaken_bpv (s : State) (v : List Response) : (s.setTaken v).bpv = s.bpv := rfl
@[simp] theorem State.setTaken_palEn (s : State) (v : List Response) : (s.setTaken v).palEn = s.palEn := rfl
@[simp] theorem State.setTaken_palLen (s : State) (v : List Response) : (s.setTaken v).palLen = s.palLen := rfl
@[simp] theorem State.setTaken_halted (s : State) (v : List Response) : (s.setTaken v).halted = s.halted := rfl
@[simp] theorem State.setTaken_statusReg (s : State) (v : List Response) : (s.setTaken v).statusReg = s.statusReg := rfl

@[simp] theorem State.answered_config (s : State) (c : StatusCode) (d : Word) : (s.answered c d).config = s.config := rfl
@[simp] theorem State.answered_status (s : State) (c : StatusCode) (d : Word) : (s.answered c d).status = s.status := rfl
@[simp] theorem State.answered_ws (s : State) (c : StatusCode) (d : Word) : (s.answered c d).ws = s.ws := rfl
@[simp] theorem State.answered_pal (s : State) (c : StatusCode) (d : Word) : (s.answered c d).pal = s.pal := rfl
@[simp] theorem State.answered_ls (s : State) (c : StatusCode) (d : Word) : (s.answered c d).ls = s.ls := rfl
@[simp] theorem State.answered_port (s : State) (c : StatusCode) (d : Word) : (s.answered c d).port = .busy (some ⟨c, d⟩) := rfl
@[simp] theorem State.answered_params (s : State) (c : StatusCode) (d : Word) : (s.answered c d).params = s.params := rfl
@[simp] theorem State.answered_inputs (s : State) (c : StatusCode) (d : Word) : (s.answered c d).inputs = s.inputs := rfl
@[simp] theorem State.answered_offered (s : State) (c : StatusCode) (d : Word) : (s.answered c d).offered = s.offered := rfl
@[simp] theorem State.answered_taken (s : State) (c : StatusCode) (d : Word) : (s.answered c d).taken = s.taken := rfl
@[simp] theorem State.answered_bpv (s : State) (c : StatusCode) (d : Word) : (s.answered c d).bpv = s.bpv := rfl
@[simp] theorem State.answered_palEn (s : State) (c : StatusCode) (d : Word) : (s.answered c d).palEn = s.palEn := rfl
@[simp] theorem State.answered_palLen (s : State) (c : StatusCode) (d : Word) : (s.answered c d).palLen = s.palLen := rfl
@[simp] theorem State.answered_halted (s : State) (c : StatusCode) (d : Word) : (s.answered c d).halted = s.halted := rfl
@[simp] theorem State.answered_statusReg (s : State) (c : StatusCode) (d : Word) : (s.answered c d).statusReg = s.statusReg := rfl

@[simp] theorem State.setPort_toBlock (s : State) (v : Port) : (s.setPort v).toBlock = s.toBlock := rfl
@[simp] theorem State.setInputs_toBlock (s : State) (v : List Edge) : (s.setInputs v).toBlock = s.toBlock := rfl
@[simp] theorem State.setOffered_toBlock (s : State) (v : Option Command) : (s.setOffered v).toBlock = s.toBlock := rfl
@[simp] theorem State.setTaken_toBlock (s : State) (v : List Response) : (s.setTaken v).toBlock = s.toBlock := rfl
@[simp] theorem State.answered_toBlock (s : State) (c : StatusCode) (d : Word) : (s.answered c d).toBlock = s.toBlock := rfl

@[simp] theorem State.resetWith_config (p : Params) : (State.resetWith p).config = configEmpty := rfl
@[simp] theorem State.resetWith_status (p : Params) : (State.resetWith p).status = ⟨false, 0#4, 0#16⟩ := rfl
@[simp] theorem State.resetWith_ws (p : Params) : (State.resetWith p).ws = [] := rfl
@[simp] theorem State.resetWith_pal (p : Params) : (State.resetWith p).pal = [] := rfl
@[simp] theorem State.resetWith_ls (p : Params) : (State.resetWith p).ls = [] := rfl
@[simp] theorem State.resetWith_port (p : Params) : (State.resetWith p).port = .busy none := rfl
@[simp] theorem State.resetWith_params (p : Params) : (State.resetWith p).params = p := rfl
@[simp] theorem State.resetWith_inputs (p : Params) : (State.resetWith p).inputs = [] := rfl
@[simp] theorem State.resetWith_offered (p : Params) : (State.resetWith p).offered = none := rfl
@[simp] theorem State.resetWith_taken (p : Params) : (State.resetWith p).taken = [] := rfl
@[simp] theorem State.resetWith_toBlock (p : Params) : (State.resetWith p).toBlock = Block.reset p := rfl

@[simp] theorem State.ofBlock_toBlock (p : Params) (b : Block) : (State.ofBlock p b).toBlock = b := rfl
@[simp] theorem State.ofBlock_port (p : Params) (b : Block) : (State.ofBlock p b).port = .ready := rfl
@[simp] theorem State.ofBlock_params (p : Params) (b : Block) : (State.ofBlock p b).params = p := rfl
@[simp] theorem State.ofBlock_inputs (p : Params) (b : Block) : (State.ofBlock p b).inputs = [] := rfl
@[simp] theorem State.ofBlock_offered (p : Params) (b : Block) : (State.ofBlock p b).offered = none := rfl
@[simp] theorem State.ofBlock_taken (p : Params) (b : Block) : (State.ofBlock p b).taken = [] := rfl

@[simp] theorem State.afterReset_config (s : State) : s.afterReset.config = configEmpty := rfl
@[simp] theorem State.afterReset_status (s : State) : s.afterReset.status = ⟨false, 0#4, 0#16⟩ := rfl
@[simp] theorem State.afterReset_ws (s : State) : s.afterReset.ws = [] := rfl
@[simp] theorem State.afterReset_pal (s : State) : s.afterReset.pal = [] := rfl
@[simp] theorem State.afterReset_ls (s : State) : s.afterReset.ls = [] := rfl
@[simp] theorem State.afterReset_port (s : State) : s.afterReset.port = .busy none := rfl
@[simp] theorem State.afterReset_params (s : State) : s.afterReset.params = s.params := rfl
@[simp] theorem State.afterReset_inputs (s : State) : s.afterReset.inputs = s.inputs := rfl
@[simp] theorem State.afterReset_offered (s : State) : s.afterReset.offered = none := rfl
@[simp] theorem State.afterReset_taken (s : State) : s.afterReset.taken = s.taken := rfl

end Sys2Proof.Machine
end

