-- ==== Sys2Proof/Laws/Exec.lean ====
section
/-! SUPPORT. What respond and raise answer, and, once for all commands, what executing one can do. -/

namespace Sys2Proof.Machine

@[simp] theorem State.respond_eq (s : State) (c : StatusCode) (d : Word) : s.respond c d = .next (s.answered c d) := rfl

@[simp] theorem State.raise_eq (s : State) (c : StatusCode) : s.raise c = .next (s.answered c 0#64) := rfl

/-- A fatal error in a block that is not halted latches STATUS (60_exceptions.md R183). -/
theorem State.raiseFatal_running {s : State} (h : s.halted = false) (c : StatusCode) (idx : Index) :
    s.raiseFatal c idx = .next ((s.setStatus ⟨true, c.code, idx⟩).answered c 0#64) := by
  simp only [State.raiseFatal, State.respond_eq, Status.latch_running (show s.status.fatal = false from h)]

/-- What executing a command can do to the state. -/
inductive Effect (s : State) : State → Prop where
  /-- It answers and changes nothing else: a read, or a non-fatal error. -/
  | answer (c : StatusCode) (d : Word) (h : responseDataRule ⟨c, d⟩) : Effect s (s.answered c d)
  /-- A fatal error. -/
  | fatal (c : StatusCode) (idx : Index) (hs : s.halted = false) (hc : c.fatal = true) (hi : idx.toNat < Config.nElem) :
    Effect s ((s.setStatus ⟨true, c.code, idx⟩).answered c 0#64)
  | setRaw (idx : Index) (v : Word) (hs : s.halted = false) (hi : idx.toNat < Config.nElem) (hv : v.toNat < 2 ^ s.bpv)
    (he : s.elementExists idx.toNat = true) :
    Effect s ((s.setWs (setRaw s.bpv s.ws idx.toNat v)).answered .ok 0#64)
  | word (a : Nat) (v : Word) (hs : s.halted = false) (ha : a < Config.wsDepth) :
    Effect s ((s.setWs (s.ws.write a v)).answered .ok 0#64)
  | pal (a : Nat) (v : Word) (hs : s.halted = false) (ha : a < Config.palDepth) :
    Effect s ((s.setPal (s.pal.write a v)).answered .ok 0#64)
  | lword (a : Nat) (v : Word) (hs : s.halted = false) (hl : s.params.hasLight = true) (ha : a < Config.lsDepth) :
    Effect s ((s.setLs (s.ls.write a v)).answered .ok 0#64)
  | config (d : Word) (hs : s.halted = false) (hd : cfgLegal d = true) : Effect s ((s.setConfig (d.setWidth 32)).answered .ok 0#64)
  | empty (hs : s.halted = false) :
    Effect s ((((s.setConfig configEmpty).setWs Store.zeroed).setPal Store.zeroed).answered .ok 0#64)

/-- The inversion of `exec`: if a command answers a next state, then in one of the ways of `Effect`. -/
theorem exec_effect {i : Instr} {s t : State} (h : exec i s = .next t) : Effect s t := by
  have err : ∀ {c : StatusCode} {t}, s.raise c = .next t → Effect s t := by
    rintro c t ⟨⟩
    exact .answer c 0#64 (fun _ => rfl)
  have ok : ∀ {d : Word} {t}, s.respond .ok d = .next t → Effect s t := by
    rintro d t ⟨⟩
    exact .answer .ok d (fun hne => absurd rfl hne)
  cases i <;> simp only [exec] at h
  case getRaw idx =>
    unfold execGetRaw at h
    split at h; · exact err h
    split at h; · exact err h
    split at h; · cases h
    exact ok h
  case setRaw idx v =>
    unfold execSetRaw at h
    split at h; · exact err h
    rename_i hs
    replace hs := Bool.eq_false_iff.2 hs
    split at h; · exact err h
    rename_i hi
    split at h
    · rw [State.raiseFatal_running hs] at h
      cases h
      exact .fatal _ idx hs rfl (Nat.lt_of_not_le hi)
    rename_i hv
    split at h; · cases h
    rename_i he
    cases h
    exact .setRaw idx v hs (Nat.lt_of_not_le hi) (Nat.lt_of_not_le hv) (by simpa using he)
  case get idx =>
    unfold execGet at h
    split at h; · exact err h
    rename_i hs
    split at h; · exact err h
    rename_i hi
    split at h; · cases h
    split at h; · exact ok h
    split at h
    · rw [State.raiseFatal_running (Bool.eq_false_iff.2 hs)] at h
      cases h
      exact .fatal _ idx (Bool.eq_false_iff.2 hs) rfl (Nat.lt_of_not_le hi)
    split at h; · cases h
    exact ok h
  case lightGet idx =>
    unfold execLightGet at h
    split at h; · exact err h
    split at h; · exact err h
    split at h; · exact err h
    exact ok h
  case wordRead idx =>
    unfold execWordRead at h
    split at h; · exact err h
    split at h; · exact err h
    exact ok h
  case wordWrite idx v =>
    unfold execWordWrite at h
    split at h; · exact err h
    rename_i hs
    split at h; · exact err h
    rename_i ha
    cases h
    exact .word _ v (Bool.eq_false_iff.2 hs) (Nat.lt_of_not_le ha)
  case palRead idx =>
    unfold execPalRead at h
    split at h; · exact err h
    split at h; · exact err h
    exact ok h
  case palWrite idx v =>
    unfold execPalWrite at h
    split at h; · exact err h
    rename_i hs
    split at h; · exact err h
    rename_i ha
    cases h
    exact .pal _ v (Bool.eq_false_iff.2 hs) (Nat.lt_of_not_le ha)
  case cfgRead =>
    unfold execCfgRead at h
    split at h; · exact err h
    exact ok h
  case cfgWrite d =>
    unfold execCfgWrite at h
    split at h; · exact err h
    rename_i hs
    split at h; · exact err h
    rename_i hd
    cases h
    exact .config d (Bool.eq_false_iff.2 hs) (by simpa using hd)
  case initEmpty =>
    unfold execInitEmpty at h
    split at h; · exact err h
    rename_i hs
    cases h
    exact .empty (Bool.eq_false_iff.2 hs)
  case statusRead => exact ok h
  case lwordRead idx =>
    unfold execLwordRead at h
    split at h; · exact err h
    split at h; · exact err h
    split at h; · exact err h
    exact ok h
  case lwordWrite idx v =>
    unfold execLwordWrite at h
    split at h; · exact err h
    rename_i hl
    split at h; · exact err h
    rename_i hs
    split at h; · exact err h
    rename_i ha
    cases h
    exact .lword _ v (Bool.eq_false_iff.2 hs) (by simpa using hl) (Nat.lt_of_not_le ha)

/-- No command is refused. -/
theorem exec_not_refused (i : Instr) (s : State) (r : Refusal) : exec i s ≠ .refused r := by
  intro h
  cases i <;>
    simp only [exec, execGetRaw, execSetRaw, execGet, execLightGet, execWordRead, execWordWrite, execPalRead,
      execPalWrite, execCfgRead, execCfgWrite, execInitEmpty, execStatusRead, execLwordRead, execLwordWrite] at h <;>
    (repeat' split at h) <;> cases h

/-- Relations on outcomes go through a test that both make. -/
theorem sameOutcome_ite {R : State → State → Prop} {P : Prop} [Decidable P] {a a' b b' : Host.Outcome State Fault Refusal}
    (ha : sameOutcome R a a') (hb : sameOutcome R b b') :
    sameOutcome R (if P then a else b) (if P then a' else b') := by
  split <;> assumption

/-- `exec` reads the parameters and the block alone, and writes the block and PORT alone: on another machine around the
same block it does the same to the block and PORT, and leaves that machine's other fields. -/
theorem exec_sameOutcome (i : Instr) {s u : State} (hp : u.params = s.params) (hb : u.toBlock = s.toBlock) :
    sameOutcome (fun t t' => t' = { u with toBlock := t.toBlock, port := t.port }) (exec i s) (exec i u) := by
  obtain ⟨b, q, p, l, o, k⟩ := s
  obtain ⟨b', q', p', l', o', k'⟩ := u
  simp only at hp hb
  subst hp hb
  cases i <;>
    simp only [exec, execGetRaw, execSetRaw, execGet, execLightGet, execWordRead, execWordWrite, execPalRead,
      execPalWrite, execCfgRead, execCfgWrite, execInitEmpty, execStatusRead, execLwordRead, execLwordWrite] <;>
    (repeat' refine sameOutcome_ite ?_ ?_) <;> rfl

/-- The same of an accepted command, decoded or not. -/
theorem accept_sameOutcome (c : Command) {s u : State} (hp : u.params = s.params) (hb : u.toBlock = s.toBlock) :
    sameOutcome (fun t t' => t' = { u with toBlock := t.toBlock, port := t.port }) (s.accept c) (u.accept c) := by
  have hd : decode u.params.hasLight c = decode s.params.hasLight c := by rw [hp]
  cases hi : decode s.params.hasLight c with
  | ok i => simpa only [State.accept, hd, hi] using exec_sameOutcome i hp hb
  | error _ =>
    simp only [State.accept, hd, hi]
    obtain ⟨b, q, p, l, o, k⟩ := s
    obtain ⟨b', q', p', l', o', k'⟩ := u
    simp only at hp hb
    subst hp hb
    rfl

/-- The form of `accept_sameOutcome` for a next state. -/
theorem accept_next {c : Command} {s u t : State} (hp : u.params = s.params) (hb : u.toBlock = s.toBlock)
    (h : s.accept c = .next t) : u.accept c = .next { u with toBlock := t.toBlock, port := t.port } := by
  have := accept_sameOutcome c hp hb
  rw [h] at this
  cases hu : u.accept c <;> rw [hu] at this
  · rw [this]
  · exact this.elim
  · exact this.elim

/-- What an accepted command that completes leaves unchanged, and that it leaves a response in progress
(30_encoding.md R70). -/
theorem accept_frame {c : Command} {s t : State} (h : s.accept c = .next t) :
    ∃ r : Response, t = { s with toBlock := t.toBlock, port := .busy (some r) } := by
  unfold State.accept at h
  split at h
  · cases exec_effect h <;> exact ⟨_, rfl⟩
  · cases h; exact ⟨_, rfl⟩

end Sys2Proof.Machine
end

