-- ==== Sys2Proof/Laws/Light.lean ====
section
/-! SUPPORT. The nibble unpacker bit by bit (20_memory.md R53, R54). -/

namespace Sys2Proof.Machine

/-- The lowest bit of byte `k` of a light-store word. -/
def byteBase (order : ByteOrder) (k : Nat) : Nat :=
  match order with
  | .little => 8 * k
  | .big => 56 - 8 * k

theorem byteAt_getLsbD (order : ByteOrder) (w : Word) (k j : Nat) :
    (byteAt order w k).getLsbD j = (decide (j < 8) && w.getLsbD (byteBase order k + j)) := by
  cases order <;> simp [byteAt, byteBase]

theorem nibbleOf_getLsbD (byte : Byte) (i k : Nat) :
    (nibbleOf byte i).getLsbD k = (decide (k < 4) && byte.getLsbD (4 * (i % 2) + k)) := by
  by_cases hk : k < 4
  · have hm : (15#8).getLsbD k = true := by interval_cases k <;> rfl
    rcases Nat.mod_two_eq_zero_or_one i with h | h
    · simp only [nibbleOf, h, if_true, BitVec.getLsbD_and, BitVec.ofNat_eq_ofNat, hm]
      simp [hk]
    · simp [nibbleOf, h, hk]
  · rcases Nat.mod_two_eq_zero_or_one i with h | h
    · by_cases h8 : k < 8
      · have hm : (15#8).getLsbD k = false := by interval_cases k <;> rfl
        simp only [nibbleOf, h, if_true, BitVec.getLsbD_and, BitVec.ofNat_eq_ofNat, hm]
        simp [hk]
      · rw [BitVec.getLsbD_of_ge _ _ (by omega)]
        simp [hk]
    · have : byte.getLsbD (4 + k) = false := BitVec.getLsbD_of_ge _ _ (by omega)
      simp [nibbleOf, h, hk, this]

/-- LightGet reads four bits of one word. -/
theorem lightNibble_getLsbD (order : ByteOrder) (ls : Store) (i k : Nat) :
    (lightNibble order ls i).getLsbD k =
      (decide (k < 4) && (ls.read (i / 2 / 8)).getLsbD (byteBase order (i / 2 % 8) + 4 * (i % 2) + k)) := by
  rw [lightNibble, BitVec.getLsbD_setWidth, nibbleOf_getLsbD, byteAt_getLsbD]
  by_cases hk : k < 4
  · have h1 : k < 64 := by omega
    have h2 : 4 * (i % 2) + k < 8 := by omega
    simp [hk, h1, h2, Nat.add_assoc]
  · simp [hk]

end Sys2Proof.Machine
end

