-- ==== Sys2Proof/Laws/Port.lean ====
section
/-! SUPPORT. What one clock edge can do. -/

namespace Sys2Proof.Machine

/-- What one clock edge can do to the state it is given, the edge taken off the inputs. -/
inductive EdgeCase (s : State) (e : Edge) : State → Prop where
  | reset (h : e.rst = true) : EdgeCase s e s.afterReset
  /-- A command transfers and executes. -/
  | command (c : Command) (i : Instr) {t : State} (h : e.rst = false) (hp : s.port = .ready) (hc : e.offer = some c)
    (hd : decode s.params.hasLight c = .ok i) (ht : exec i (s.setOffered none) = .next t) : EdgeCase s e t
  /-- An illegal command transfers. -/
  | illegal (c : Command) (why : Illegal) (h : e.rst = false) (hp : s.port = .ready) (hc : e.offer = some c)
    (hd : decode s.params.hasLight c = .error why) : EdgeCase s e ((s.setOffered none).answered .illegalCommand 0#64)
  /-- Nothing transfers: the block waits, becomes ready after reset, or offers its response. -/
  | wait (o : Option Command) (p : Port) (h : e.rst = false) (hp : p.response = s.port.response) :
    EdgeCase s e ((s.setOffered o).setPort p)
  /-- A response transfers. -/
  | taken (r : Response) (h : e.rst = false) (hr : e.rspReady = true) (hp : s.port = .responding r) :
    EdgeCase s e (((s.setOffered e.offer).setTaken (r :: s.taken)).setPort .ready)

theorem edge_case {s t : State} {e : Edge} (h : s.edge e = .next t) : EdgeCase s e t := by
  unfold State.edge at h
  split at h
  · cases h; exact .reset ‹_›
  rename_i hr
  replace hr : e.rst = false := by simpa using hr
  split at h; · cases h
  split at h
  · rename_i hp
    split at h
    · rename_i c hc
      unfold State.accept at h
      split at h
      · exact .command c _ hr hp hc ‹_› h
      · cases h; exact .illegal c _ hr hp hc ‹_›
    · cases h
      have : s.setOffered none = (s.setOffered none).setPort .ready := by
        simp only [State.setPort, ← hp]; rfl
      rw [this]; exact .wait _ _ hr (by rw [hp])
  · rename_i hp
    cases h
    exact .wait _ _ hr (by split <;> simp [hp, Port.response])
  · rename_i hp
    cases h
    exact .wait _ _ hr (by split <;> simp [hp, Port.response])
  · rename_i r hp
    split at h
    · cases h; exact .taken r hr ‹_› hp
    · cases h
      have : s.setOffered e.offer = (s.setOffered e.offer).setPort (.responding r) := by
        simp only [State.setPort, ← hp]; rfl
      rw [this]; exact .wait _ _ hr (by rw [hp])

/-- The inversion of `step`: the state it answers is a case of the next edge. -/
theorem step_case {s t : State} (h : step s = .next t) : EdgeCase (s.setInputs s.inputs.tail) s.nextEdge t := edge_case h

/-- A run is one step and then the rest of the run. -/
theorem run_succ_next {n : Nat} {s t : State} (h : step s = .next t) :
    Sys2Proof.core.run (n + 1) s = Sys2Proof.core.run n t := by
  have h' : Sys2Proof.core.step s = .next t := h
  simp only [Host.Core.run, h']

theorem run_succ_refused {n : Nat} {s : State} {r : Refusal} (h : step s = .refused r) :
    Sys2Proof.core.run (n + 1) s = .refused r := by
  have h' : Sys2Proof.core.step s = .refused r := h
  simp only [Host.Core.run, h']

end Sys2Proof.Machine
end

