-- ==== Sys2Proof/Tests/Slice0.lean ====
section
/-! SUPPORT. Tests of one step each, with expected results from the spec (95_test_vectors.md by vector id, or the rule
named), and for every obligation with hypotheses a witness that meets them. -/

namespace Sys2Proof.Tests

open Sys2Proof Sys2Proof.Machine

/-- The next state of an outcome. -/
def out : Host.Outcome State Fault Refusal → Option State
  | .next t => some t
  | _ => none

/-- The response of the command that led to an outcome. -/
def answer (o : Host.Outcome State Fault Refusal) : Option Response := (out o).bind fun t => t.port.response

/-- A block ready for its first command after reset, with these parameters. -/
def readyWith (p : Params) : State := (State.resetWith p).setPort .ready

/-- The block of most vectors: light store, LITTLE. -/
def ready : State := readyWith Params.standard

def bigBlock : State := readyWith ⟨true, .big⟩

def noLightBlock : State := readyWith ⟨false, .little⟩

/-- 95_test_vectors.md C-4: element 12 holds 17 at width 5. -/
def five : State := (ready.setConfig 0x00200105).setWs [(0, 0x1000000000000000), (1, 1)]

/-- Width 13, direct, with every bit of words 0 and 1 set. -/
def direct : State := (ready.setConfig 0x0000000D).setWs [(0, 0xFFFFFFFFFFFFFFFF), (1, 0xFFFFFFFFFFFFFFFF)]

/-- 95_test_vectors.md G-3: raw code 15 in element 0, a palette of 16 entries. -/
def mapped : State := ((ready.setConfig 0x00100104).setWs [(0, 15)]).setPal [(15, 0xFFFFFFFFFFFFFFFF)]

/-- 95_test_vectors.md E-5: halted. -/
def halted : State := ready.setStatus ⟨true, 2, 0⟩

/-- An edge at which the host takes a response. -/
def takes : Edge := ⟨false, false, 0, 0, true, false⟩

/-! ### Well-formedness: each check refuses an ill-formed term -/

theorem test_wellFormed_lightGet : (Instr.lightGet 0).wellFormed false = false := by decide
theorem test_wellFormed_lwordRead : (Instr.lwordRead 0).wellFormed false = false := by decide
theorem test_wellFormed_lwordWrite : (Instr.lwordWrite 0 1).wellFormed false = false := by decide
theorem test_wellFormed_with_light : (Instr.lightGet 0).wellFormed true = true := by decide
theorem test_wellFormed_without_light : (Instr.getRaw 0).wellFormed false = true := by decide

/-! ### Decoding: words written out from 30_encoding.md R71, R74 as OP, RSV, IDX -/

theorem test_decode_getRaw :
    decode true ⟨0b0001_0000_0000_0000_0000_0000_0000_1100, 0⟩ = .ok (.getRaw 12) := by decide
theorem test_decode_setRaw :
    decode true ⟨0b0010_0000_0000_0000_0000_1111_1111_1111, 15⟩ = .ok (.setRaw 4095 15) := by decide
theorem test_decode_get :
    decode true ⟨0b0011_0000_0000_0000_0000_0000_0110_0100, 0⟩ = .ok (.get 100) := by decide
theorem test_decode_lightGet :
    decode true ⟨0b0100_0000_0000_0000_0001_0000_0000_0000, 0⟩ = .ok (.lightGet 4096) := by decide
theorem test_decode_wordRead :
    decode true ⟨0b0101_0000_0000_0000_0000_0011_0011_1111, 0⟩ = .ok (.wordRead 831) := by decide
theorem test_decode_wordWrite :
    decode true ⟨0b0110_0000_0000_0000_1000_0000_0000_0001, 5⟩ = .ok (.wordWrite 32769 5) := by decide
theorem test_decode_palRead :
    decode true ⟨0b0111_0000_0000_0000_0000_0000_1111_1111, 0⟩ = .ok (.palRead 255) := by decide
theorem test_decode_palWrite :
    decode true ⟨0b1000_0000_0000_0000_0000_0000_1100_1000, 5⟩ = .ok (.palWrite 200 5) := by decide
theorem test_decode_cfgRead :
    decode true ⟨0b1001_0000_0000_0000_0000_0000_0000_0000, 9⟩ = .ok .cfgRead := by decide
theorem test_decode_cfgWrite :
    decode true ⟨0b1010_0000_0000_0000_0000_0000_0000_0000, 0x200105⟩ = .ok (.cfgWrite 0x200105) := by decide
theorem test_decode_initEmpty :
    decode true ⟨0b1011_0000_0000_0000_0000_0000_0000_0000, 0⟩ = .ok .initEmpty := by decide
theorem test_decode_statusRead :
    decode true ⟨0b1100_0000_0000_0000_0000_0000_0000_0000, 0⟩ = .ok .statusRead := by decide
theorem test_decode_lwordRead :
    decode true ⟨0b1101_0000_0000_0000_0000_0000_1111_1111, 0⟩ = .ok (.lwordRead 255) := by decide
theorem test_decode_lwordWrite :
    decode true ⟨0b1110_0000_0000_0000_0000_0000_0000_0000, 0xBA⟩ = .ok (.lwordWrite 0 0xBA) := by decide

/-- 95_test_vectors.md E-1, E-2: OP 0x0 and 0xF. -/
theorem test_decode_reserved_opcodes :
    decode true ⟨0, 0⟩ = .error .reservedOpcode ∧ decode true ⟨0xF0000000, 0⟩ = .error .reservedOpcode := by decide
/-- E-3, and the highest bit of RSV. -/
theorem test_decode_reserved_bits :
    decode true ⟨0x10010000, 0⟩ = .error .reservedBits ∧ decode true ⟨0x18000000, 0⟩ = .error .reservedBits := by decide
/-- H-32, H-33, and the highest bit of IDX. -/
theorem test_decode_operand_not_zero :
    decode true ⟨0x90000001, 0⟩ = .error .operandNotZero ∧ decode true ⟨0xA0008000, 0⟩ = .error .operandNotZero ∧
      decode true ⟨0xB0000001, 0⟩ = .error .operandNotZero ∧ decode true ⟨0xC0000001, 0⟩ = .error .operandNotZero := by
  decide
/-- L-12. -/
theorem test_decode_without_light :
    decode false ⟨0x40000000, 0⟩ = .error .noLight ∧ decode false ⟨0xD0000000, 0⟩ = .error .noLight ∧
      decode false ⟨0xE0000000, 1⟩ = .error .noLight := by decide
/-- 30_encoding.md R81, 95_test_vectors.md C-19. -/
theorem test_encode : encode (.setRaw 4095 15) = ⟨0x20000FFF, 15⟩ ∧ encode .initEmpty = ⟨0xB0000000, 0⟩ := by decide
/-- A row of the table is 32 bits: the data word is 0 (log 21). -/
theorem test_decodeTableWord :
    decodeTableWord 32 0x6000033F = some (.wordWrite 831 0) ∧ decodeTableWord 32 0xF0000000 = none := by decide

/-! ### The codec -/

theorem test_getRaw_c4 : answer (exec (.getRaw 12) five) = some ⟨.ok, 0x11⟩ := by decide
theorem test_getRaw_c20 : answer (exec (.getRaw 4096) ready) = some ⟨.indexOutOfRange, 0⟩ := by decide
/-- C-13: the neighbours on an all-ones background. -/
theorem test_setRaw_c13 :
    ((out (exec (.setRaw 12 17) (direct.setConfig 0x00200105))).map fun t =>
      (t.ws.read 0, t.ws.read 1, getRaw 5 t.ws 11, getRaw 5 t.ws 12, getRaw 5 t.ws 13)) =
      some (0x1FFFFFFFFFFFFFFF, 0xFFFFFFFFFFFFFFFF, 0x1F, 0x11, 0x1F) := by decide
/-- C-17: the last element at width 13. -/
theorem test_setRaw_c17 :
    ((out (exec (.setRaw 4095 0x1ABC) (ready.setConfig 0x0000000D))).map (·.ws)) = some [(831, 0xD5E0000000000000)] := by
  decide

/-! ### The palette -/

theorem test_get_g3 : answer (exec (.get 0) mapped) = some ⟨.ok, 0xFFFFFFFFFFFFFFFF⟩ := by decide
theorem test_get_g4 :
    ((out (exec (.get 0) (mapped.setConfig 0x000F0104))).map fun t => (t.port.response, t.statusReg)) =
      some (some ⟨.unmappedRawCode, 0⟩, 0x0000000100000031) := by decide
theorem test_palRead_g13 : answer (exec (.palRead 256) ready) = some ⟨.addrOutOfRange, 0⟩ := by decide
theorem test_palRead_last : answer (exec (.palRead 255) (ready.setPal [(255, 7)])) = some ⟨.ok, 7⟩ := by decide
theorem test_palWrite_g10 : ((out (exec (.palWrite 200 5) ready)).map (·.pal)) = some [(200, 5)] := by decide
/-- Writing 0 leaves no entry (log 2). -/
theorem test_palWrite_zero : ((out (exec (.palWrite 15 0) mapped)).map (·.pal)) = some [] := by decide

/-! ### The light store -/

/-- L-2. -/
theorem test_lightGet_l2 :
    ((List.range 16).map fun i => lightNibble .little [(0, 0x0123456789ABCDEF)] i) =
      [0xF, 0xE, 0xD, 0xC, 0xB, 0xA, 9, 8, 7, 6, 5, 4, 3, 2, 1, 0] := by decide
/-- L-7. -/
theorem test_lightGet_l7 :
    answer (exec (.lightGet 4095) (bigBlock.setLs [(255, 0xFEDCBA9876543210)])) = some ⟨.ok, 1⟩ ∧
      answer (exec (.lightGet 4080) (bigBlock.setLs [(255, 0xFEDCBA9876543210)])) = some ⟨.ok, 0xE⟩ := by decide
theorem test_lwordRead_l11 : answer (exec (.lwordRead 256) ready) = some ⟨.addrOutOfRange, 0⟩ := by decide
theorem test_lwordRead_p3 : answer (exec (.lwordRead 0) (ready.setLs [(0, 0xBA)])) = some ⟨.ok, 0xBA⟩ := by decide
theorem test_lwordWrite_p3 :
    ((out (exec (.lwordWrite 255 0xFEDCBA9876543210) (ready.setLs [(0, 0xBA)]))).map (·.ls)) =
      some [(0, 0xBA), (255, 0xFEDCBA9876543210)] := by decide
theorem test_lwordWrite_l12 : answer (exec (.lwordWrite 0 1) noLightBlock) = some ⟨.illegalCommand, 0⟩ := by decide

/-! ### Configuration and host access -/

theorem test_wordRead_h25 : answer (exec (.wordRead 1) five) = some ⟨.ok, 1⟩ := by decide
theorem test_wordRead_h27 : answer (exec (.wordRead 832) ready) = some ⟨.addrOutOfRange, 0⟩ := by decide
/-- P4: the last word, at BPV 4. -/
theorem test_wordWrite_p4 :
    ((out (exec (.wordWrite 831 0xFFFFFFFFFFFFFFFF) ready)).map (·.ws)) = some [(831, 0xFFFFFFFFFFFFFFFF)] := by decide
theorem test_wordWrite_h27 : answer (exec (.wordWrite 832 1) ready) = some ⟨.addrOutOfRange, 0⟩ := by decide
theorem test_cfgRead_h22 : answer (exec .cfgRead ready) = some ⟨.ok, 0x10104⟩ := by decide
/-- H-1, H-2, H-7, H-9 to H-11: accepted. -/
theorem test_cfgLegal_accepts :
    ([0x00010104, 0x00100104, 0x01000108, 0x01000109, 0x0100010D, 0x0000000D] : List Word).all cfgLegal = true := by decide
/-- H-4, H-6, H-8, H-12 to H-21: refused. -/
theorem test_cfgLegal_refuses :
    ([0x00000104, 0x00210105, 0x01010108, 0x0000000C, 0x0001000D, 0x0000010D, 0x00010103, 0x0001010E, 0x00010114, 0x00010304, 0x00010184, 0x02010104,
      0x0000000100010104] : List Word).all (fun d => !cfgLegal d) = true := by decide
/-- H-5, over a Word Store that is not empty. -/
theorem test_cfgWrite_h5 :
    ((out (exec (.cfgWrite 0x00200105) (ready.setWs five.ws))).map fun t => (t.port.response, t.config, t.ws)) =
      some (some ⟨.ok, 0⟩, 0x00200105, five.ws) := by decide
/-- H-3, H-23. -/
theorem test_cfgWrite_h3 :
    ((out (exec (.cfgWrite 0x00110104) ready)).map fun t => (t.port.response, t.config)) =
      some (some ⟨.invalidConfig, 0⟩, 0x00010104) := by decide
/-- H-28, R-5. -/
theorem test_initEmpty_h28 :
    ((out (exec .initEmpty (mapped.setLs [(3, 9)]))).map fun t => (t.config, t.ws ++ t.pal, t.ls)) =
      some (0x00010104, [], [(3, 9)]) := by decide
theorem test_initEmpty_e8 : answer (exec .initEmpty halted) = some ⟨.halted, 0⟩ := by decide
/-- H-29 to H-31. -/
theorem test_statusRead_constants :
    answer (exec .statusRead ready) = some ⟨.ok, 0x0000000100000000⟩ ∧
      answer (exec .statusRead bigBlock) = some ⟨.ok, 0x0000000300000000⟩ ∧
      answer (exec .statusRead noLightBlock) = some ⟨.ok, 0⟩ := by decide
/-- E-9. -/
theorem test_statusRead_e9 : answer (exec .statusRead halted) = some ⟨.ok, 0x0000000100000021⟩ := by decide

/-! ### Errors, the port and reset -/

/-- C-23, E-6. -/
theorem test_fatal_e6 :
    ((out (exec (.setRaw 6 0x2000) direct)).map fun t => (t.port.response, t.statusReg, t.ws)) =
      some (some ⟨.invalidRawValue, 0⟩, 0x0000000100060021, direct.ws) := by decide
/-- E-4: range before value. -/
theorem test_order_e4 : answer (exec (.setRaw 5000 0xFFFF) ready) = some ⟨.indexOutOfRange, 0⟩ := by decide
/-- E-10 to E-12. -/
theorem test_halted_order :
    answer (halted.accept ⟨0xF0000000, 0⟩) = some ⟨.illegalCommand, 0⟩ ∧
      answer (halted.accept ⟨0x20001000, 0⟩) = some ⟨.halted, 0⟩ ∧
      answer (halted.accept ⟨0x20000001, 0xFFFF⟩) = some ⟨.halted, 0⟩ := by decide
/-- 60_exceptions.md R180: the codes. -/
theorem test_status_codes :
    [StatusCode.ok, .indexOutOfRange, .invalidRawValue, .unmappedRawCode, .invalidConfig, .illegalCommand, .addrOutOfRange,
      .halted].map (·.code) = [0, 1, 2, 3, 4, 5, 6, 7] := by decide
/-- The first command after reset, through the step (95_test_vectors.md C-19 with DATA 0). -/
theorem test_step_withFetchWord : answer (step (State.reset.withFetchWord 32 0x20000FFF)) = some ⟨.ok, 0⟩ := by decide
/-- 30_encoding.md R86: a command that changes before its transfer is refused by name. -/
theorem test_offer_changed :
    (match step (((ready.setPort .ready).setOffered (some ⟨0x10000000, 0⟩)).setInputs [Edge.ofCommand ⟨0x10000001, 0⟩]) with
      | .refused .commandNotHeld => true
      | _ => false) = true := by decide
/-- R-4: reset while a response waits. -/
theorem test_reset_r4 :
    ((out (step ((halted.setPort (.responding ⟨.ok, 5⟩)).setInputs [⟨true, false, 0, 0, true, true⟩]))).map fun t =>
      (t.port, t.statusReg, t.taken)) = some (.busy none, 0x0000000100000000, []) := by decide

/-! ### The assembler and the host's procedures -/

/-- 30_encoding.md R81 and 95_test_vectors.md P1 lines 4 and 1. -/
theorem test_assembleText :
    assembleText "SET_RAW 12, 0x11 ; straddles".toList = some [⟨0x2000000C, 17⟩] ∧
      assembleText "CFG 5, 1, 32".toList = some [⟨0xA0000000, 0x200105⟩] ∧
      assembleText "GET_RAW 65536".toList = none ∧ assembleText "; nothing".toList = some [] := by decide
/-- 30_encoding.md R82. -/
theorem test_pseudo :
    AsmLine.cfgDirect.expand = some [.cfgWrite 0xD] ∧ AsmLine.nop.expand = some [.statusRead] ∧
      (AsmLine.loadPalette [7, 8]).expand = some [.palWrite 0 7, .palWrite 1 8] ∧
      (AsmLine.loadWords 830 [1, 2]).expand = some [.wordWrite 830 1, .wordWrite 831 2] := by decide
/-- 30_encoding.md R83, 95_test_vectors.md P1 line 2. -/
theorem test_listing :
    commandListing ⟨0x80000011, 0xDEADBEEF⟩ = "CMD=0x80000011 DATA=0x00000000DEADBEEF".toList ∧
      responseListing ⟨.ok, 0x11⟩ = "-> OK, 0x0000000000000011".toList := by decide
/-- 43_config_host.md R157. -/
theorem test_fromParts :
    fromParts 13 [7] none = [.cfgWrite 0xD, .wordWrite 0 7] ∧
      fromParts 4 [] (some [0, 9]) = [.cfgWrite 0x20104, .palWrite 0 0, .palWrite 1 9] := by decide
/-- 43_config_host.md R158: the palette of a block, its absence in direct mode, and no answer from a halted block. -/
theorem test_readers :
    five.bitsPerValue = some 5 ∧ (mapped.setConfig 0x00020104).palette = some (some [0, 0]) ∧ direct.palette = some none ∧
      halted.bitsPerValue = none ∧ halted.palette = none := by decide
/-- 00_scope.md R2. -/
theorem test_identification :
    Params.standard.identification = "BSC1-L" ∧ (⟨false, .little⟩ : Params).identification = "BSC1" := by decide

/-! ### Witnesses: for every obligation with hypotheses, values that meet all of them -/

theorem inv_ready : Inv ready := by
  refine ⟨?_, ?_, ?_, ?_, ?_, ?_⟩ <;> decide
theorem inv_five : Inv five := by
  refine ⟨?_, ?_, ?_, ?_, ?_, ?_⟩ <;> decide
theorem inv_mapped : Inv mapped := by
  refine ⟨?_, ?_, ?_, ?_, ?_, ?_⟩ <;> decide
theorem inv_direct : Inv direct := by
  refine ⟨?_, ?_, ?_, ?_, ?_, ?_⟩ <;> decide

/-- `DecodeEncodeRoundTrip`: a light command where there is a light store, another command where there is none. -/
theorem witness_DecodeEncodeRoundTrip :
    (Instr.lwordWrite 65535 5).wellFormed true = true ∧ (Instr.cfgWrite 9).wellFormed false = true := by decide

theorem witness_DecodedCommandEncodesBack : decode false ⟨0x2000FFFF, 7⟩ = .ok (.setRaw 65535 7) := by decide

/-- The cases of `IllegalCommandsAreThoseOfTheRule`, one by one, and a command that is none of them. -/
theorem witness_IllegalCommandsAreThoseOfTheRule :
    opNumber ⟨0x0000FFFF, 0⟩ = 0x0 ∧ opNumber ⟨0xF0000000, 0⟩ = 0xF ∧ rsvNumber ⟨0x18000000, 0⟩ ≠ 0 ∧
      (opNumber ⟨0xC0000001, 0⟩ ∈ [0x9, 0xA, 0xB, 0xC] ∧ idxNumber ⟨0xC0000001, 0⟩ ≠ 0) ∧
      (opNumber ⟨0x40000000, 0⟩ ∈ [0x4, 0xD, 0xE] ∧ noLightBlock.params.hasLight = false) ∧
      ¬ (opNumber ⟨0x40000000, 0⟩ = 0x0 ∨ opNumber ⟨0x40000000, 0⟩ = 0xF ∨ rsvNumber ⟨0x40000000, 0⟩ ≠ 0 ∨
          (opNumber ⟨0x40000000, 0⟩ ∈ [0x9, 0xA, 0xB, 0xC] ∧ idxNumber ⟨0x40000000, 0⟩ ≠ 0) ∨
          (opNumber ⟨0x40000000, 0⟩ ∈ [0x4, 0xD, 0xE] ∧ ready.params.hasLight = false)) := by decide

theorem witness_DataIsIgnoredByCommandsWithoutData :
    opNumber ⟨0x10000000, 1⟩ ∉ [0x2, 0x6, 0x8, 0xA, 0xE] := by decide

/-- A command just offered, and one held for an edge before. -/
theorem witness_StepRunsTheDecodedCommand :
    let e := Edge.ofCommand ⟨0x10000FFF, 0⟩
    ready.port = .ready ∧ (ready.setInputs [e]).inputs = e :: [] ∧ e.rst = false ∧ e.offer = some ⟨0x10000FFF, 0⟩ ∧
      ready.offered = none ∧ (ready.setOffered (some ⟨0x10000FFF, 0⟩)).offered = some ⟨0x10000FFF, 0⟩ ∧
      decode ready.params.hasLight ⟨0x10000FFF, 0⟩ = .ok (.getRaw 4095) := by decide

theorem witness_FetchWordRunsAtTheNextStep :
    decode halted.params.hasLight ⟨BitVec.ofNat 32 0xB0000000, 0⟩ = .ok .initEmpty := by decide

/-- The largest operands that fit, and the first index that does not. -/
theorem witness_AssemblerWritesTheTable : 65535 < 65536 ∧ 2 ^ 64 - 1 < 2 ^ 64 ∧ 65536 ≤ 65536 := by decide

/-- A whole CONFIG image, a full palette, and words up to the last index that fits. -/
theorem witness_PseudoInstructionsExpand :
    13 + 1 * 2 ^ 8 + 256 * 2 ^ 16 < 2 ^ 64 ∧ 1 ≤ (List.replicate 256 7).length ∧ (List.replicate 256 7).length ≤ 256 ∧
      (∀ v ∈ List.replicate 256 7, v < 2 ^ 64) ∧ 1 ≤ [1, 2].length ∧ 65534 + [1, 2].length ≤ 65536 ∧
      ∀ d ∈ [1, 2], d < 2 ^ 64 := by
  refine ⟨by decide, by rw [List.length_replicate]; decide, by rw [List.length_replicate], ?_, by decide, by decide, by decide⟩
  intro v hv
  rw [List.eq_of_mem_replicate hv]
  decide

/-- The ends of the ranges, an element that straddles and one that does not, and both widths of the last clause. -/
theorem witness_AddressingValuesInRange :
    (4 ≤ 4 ∧ 4 ≤ 13 ∧ 0 ≤ 4095 ∧ (place 4 0).straddle = false) ∧ (4 ≤ 13 ∧ 13 ≤ 13 ∧ 4095 ≤ 4095) ∧
      (place 13 4095).straddle = false ∧ (place 13 4).straddle = true ∧ (place 5 12).straddle = true ∧
      ((8 : Nat) = 4 ∨ 8 = 8) := by decide

theorem witness_StraddlingElementsByWidth :
    (place 13 4).straddle = true ∧ (place 13 4).off = 52 ∧ (place 13 4031).off = 51 ∧ 4 ≤ 13 ∧ 13 ≤ 13 := by decide

/-- The last element at the largest width, its largest code, and the bit before it. -/
theorem witness_CodecIsTheFlatBitView :
    4 ≤ 13 ∧ 13 ≤ 13 ∧ 4095 < 4096 ∧ Store.wf 832 direct.ws ∧ (8191 : Word).toNat < 2 ^ 13 ∧
      13 * 4095 - 1 < 13 * 4095 ∧ 13 * 4095 + 13 ≤ 53248 := by decide

theorem witness_GetRawReturnsTheStoredCode :
    cfgLegal (five.config.setWidth 64) = true ∧ five.halted = false ∧ (4095 : Index).toNat < 4096 := by decide

theorem witness_SetRawStoresTheElementOnly :
    Inv five ∧ five.halted = false ∧ (4095 : Index).toNat < 4096 ∧ (31 : Word).toNat < 2 ^ five.bpv :=
  ⟨inv_five, by decide⟩

theorem witness_SetRawOfTooLargeValueIsFatal :
    five.halted = false ∧ (0 : Index).toNat < 4096 ∧ 2 ^ five.bpv ≤ (32 : Word).toNat := by decide

/-- Two elements that share the word `WS[1]`, and one element twice. -/
theorem witness_GetRawSeesTheSetRawBefore :
    Inv five ∧ five.halted = false ∧ (12 : Index).toNat < 4096 ∧ (13 : Index).toNat < 4096 ∧
      (31 : Word).toNat < 2 ^ five.bpv :=
  ⟨inv_five, by decide⟩

theorem witness_CodecLaws :
    4 ≤ 5 ∧ 5 ≤ 13 ∧ 12 < 4096 ∧ 4095 < 4096 ∧ 12 ≠ 4095 ∧ Store.wf 832 five.ws ∧ (0 : Word).toNat < 2 ^ 5 ∧
      (31 : Word).toNat < 2 ^ 5 ∧ 2 ≠ (place 5 12).w0 ∧ 2 ≠ (place 5 12).w1 := by decide

/-- The first word above the active ones at width 5, with another content of it. -/
theorem witness_CodecKeepsToTheActiveWords :
    Inv five ∧ (out (exec (.setRaw 12 0) five)).isSome = true ∧ (out (exec (.getRaw 12) five)).isSome = true ∧
      (out (exec (.get 12) five)).isSome = true ∧ 64 * five.bpv ≤ 320 ∧ Store.wf 832 (five.ws.write 320 7) ∧
      ∀ w < 64 * five.bpv, (five.ws.write 320 7).read w = five.ws.read w :=
  ⟨inv_five, by decide, by decide, by decide, by decide, by decide, fun w hw => Store.read_write_other inv_five.memory.1.canonical
    (by have : five.bpv = 5 := rfl
        omega) 7⟩

/-- Paletted and direct at width 13. -/
theorem witness_CodecIsIndependentOfThePalette :
    (direct.setConfig 0x0100010D).bpv = direct.bpv ∧ (direct.setConfig 0x0100010D).ws = direct.ws ∧
      (direct.setConfig 0x0100010D).status = direct.status ∧ (direct.setConfig 0x0100010D).palEn ≠ direct.palEn ∧
      (out (exec (.cfgWrite 0xD) direct)).isSome = true := by decide

theorem witness_ConfigWriteReinterpretsTheSameBits :
    five.halted = false ∧ cfgLegal 0x01000108 = true ∧ (4095 : Index).toNat < 4096 := by decide

/-- Direct mode; the largest code that is mapped; the smallest that is not. -/
theorem witness_GetFollowsTheLookup :
    (cfgLegal (direct.config.setWidth 64) = true ∧ direct.palEn = false ∧
      ∀ k < 64, (0x1FFF : Word).getLsbD k = (decide (k < direct.bpv) && direct.ws.flat (direct.bpv * 0 + k))) ∧
      (cfgLegal (mapped.config.setWidth 64) = true ∧ mapped.palEn = true ∧ ¬ mapped.palLen ≤ (15 : Word).toNat ∧
        ∀ k < 64, (15 : Word).getLsbD k = (decide (k < mapped.bpv) && mapped.ws.flat (mapped.bpv * 0 + k))) ∧
      (cfgLegal 0x000F0104 = true ∧ (mapped.setConfig 0x000F0104).palLen ≤ (15 : Word).toNat) := by decide

theorem witness_PaletteEntriesReadBack :
    Memory.wf mapped ∧ mapped.halted = false ∧ (255 : Index).toNat < 256 ∧ (0 : Index).toNat < 256 := by decide

theorem witness_PaletteChangesActAtOnce :
    Inv mapped ∧ mapped.halted = false ∧ (0 : Index).toNat < 4096 ∧ mapped.palEn = true ∧
      exec (.getRaw 0) mapped = .next { mapped with port := .busy (some ⟨.ok, (15 : Index).setWidth 64⟩) } ∧
      (15 : Index).toNat < mapped.palLen ∧ (out (exec (.palWrite 15 7) mapped)).isSome = true ∧
      cfgLegal 0x000F0104 = true ∧ cfgBpv (0x000F0104 : Word) = mapped.bpv ∧ cfgPalEn (0x000F0104 : Word) = true ∧
      cfgPalLen (0x000F0104 : Word) ≤ (15 : Index).toNat ∧ (out (exec (.cfgWrite 0x000F0104) mapped)).isSome = true :=
  ⟨inv_mapped, by decide, by decide, by decide, rfl, by decide⟩

theorem witness_LightNibbleClosedForms : 4095 < 4096 := by decide

/-- Both byte orders. -/
theorem witness_LightGetReturnsTheNibble :
    ready.params.hasLight = true ∧ ready.halted = false ∧ bigBlock.params.hasLight = true ∧ bigBlock.halted = false ∧
      (4095 : Index).toNat < 4096 := by decide

theorem witness_LightWordsReadBack :
    Memory.wf bigBlock ∧ bigBlock.params.hasLight = true ∧ bigBlock.halted = false ∧ (255 : Index).toNat < 256 ∧
      (0 : Index).toNat < 256 := by decide

theorem witness_LightCommandsNeedTheLightStore : noLightBlock.params.hasLight = false := by decide

theorem witness_WordStoreWordsReadBack :
    Memory.wf five ∧ five.halted = false ∧ (831 : Index).toNat < 832 ∧ (0 : Index).toNat < 832 := by decide

theorem witness_ConfigWritesReadBack : five.halted = false ∧ cfgLegal 0x0000000D = true := by decide

theorem witness_IllegalConfigIsRefused : five.halted = false ∧ cfgLegal 0x0000000C = false := by decide

theorem witness_ConfigReadReturnsConfig : five.halted = false := by decide

theorem witness_InitEmptyMakesTheEmptyArray : mapped.halted = false ∧ (4095 : Index).toNat < 4096 := by decide

/-- A full palette at width 4, and no palette. -/
theorem witness_FromPartsLoadsTheArray :
    Inv five ∧ five.halted = false ∧ 4 ≤ (4 : BitVec 8).toNat ∧ (4 : BitVec 8).toNat ≤ 13 ∧
      (1 ≤ (List.replicate 16 (9 : Word)).length ∧ (List.replicate 16 (9 : Word)).length ≤ min (2 ^ (4 : BitVec 8).toNat) 256) ∧
      (13 : BitVec 8).toNat = 13 ∧ 64 * (13 : BitVec 8).toNat ≤ (List.replicate 832 (9 : Word)).length :=
  ⟨inv_five, by decide, by decide, by decide, by decide, by decide, by rw [List.length_replicate]; decide⟩

/-- A width on either side of the range, an empty palette, one entry too many, and no palette at width 12. -/
theorem witness_FromPartsRefusesBadParts :
    five.halted = false ∧ (3 : BitVec 8).toNat < 4 ∧ 13 < (14 : BitVec 8).toNat ∧ ([] : List Word).length < 1 ∧
      min (2 ^ (4 : BitVec 8).toNat) 256 < (List.replicate 17 (0 : Word)).length ∧ (12 : BitVec 8).toNat ≠ 13 := by decide

theorem witness_LoadingCommandsCommute :
    Inv five ∧ five.halted = false ∧ (831 : Index).toNat < 832 ∧ (0 : Index).toNat < 832 ∧ (831 : Index) ≠ 0 ∧
      (0 : Index).toNat < 256 ∧ (255 : Index).toNat < 256 ∧ (0 : Index) ≠ 255 ∧ cfgLegal 0x0000000D = true :=
  ⟨inv_five, by decide⟩

theorem witness_StatusIsTheFirstFailingCheck : Inv mapped := inv_mapped

/-- The first address out of range, for each of the three ranges. -/
theorem witness_OutOfRangeOperandsAreReported :
    ready.halted = false ∧ noLightBlock.halted = false ∧ (Instr.lightGet 4096).wellFormed ready.params.hasLight = true ∧
      (Instr.palRead 256).wellFormed noLightBlock.params.hasLight = true ∧ 4096 ≤ (4096 : Index).toNat ∧
      832 ≤ (832 : Index).toNat ∧ 256 ≤ (256 : Index).toNat := by decide

theorem witness_NonFatalErrorsChangeNothing :
    exec (.getRaw 4096) ready = .next { ready with port := .busy (some ⟨.indexOutOfRange, 0⟩) } ∧
      StatusCode.indexOutOfRange ∈
        [StatusCode.indexOutOfRange, .invalidConfig, .illegalCommand, .addrOutOfRange, .halted] :=
  ⟨rfl, by decide⟩

/-- A block that is not halted and one that is, and a command that completes in the second. -/
theorem witness_RaiseFatalKeepsTheFirstError :
    ready.status.fatal = false ∧ halted.status.fatal = true ∧
      exec (.get 0) halted = .next { halted with port := .busy (some ⟨.halted, 0⟩) } := ⟨rfl, rfl, rfl⟩

theorem witness_FatalErrorsLatchStatusOnly :
    exec (.setRaw 6 0x2000) direct =
      .next { direct with status := ⟨true, 2#4, 6⟩, port := .busy (some ⟨.invalidRawValue, 0⟩) } := rfl

/-- An illegal command, a legal one, a step without reset and one with it, all while halted. -/
theorem witness_HaltedBlockOnlyAnswers :
    halted.status.fatal = true ∧ decode halted.params.hasLight ⟨0xC0000001, 0⟩ = .error .operandNotZero ∧
      decode halted.params.hasLight ⟨0xC0000000, 0⟩ = .ok .statusRead ∧ (out (step halted)).isSome = true ∧
      halted.nextEdge.rst = false ∧ (halted.setInputs [⟨true, false, 0, 0, false, true⟩]).nextEdge.rst = true := by decide

theorem witness_StatusChangesOnlyByFatalErrorOrReset :
    ((out (step (direct.setInputs [Edge.ofCommand ⟨0x20000006, 0x2000⟩]))).map fun t => decide (t.status ≠ direct.status)) =
      some true ∧ (direct.setInputs [Edge.ofCommand ⟨0x20000006, 0x2000⟩]).nextEdge.rst = false := by decide

theorem witness_EachCommandWritesOnlyItsOwn : (out (exec (.palWrite 0 1) five)).isSome = true := by decide

theorem witness_CommandsDependOnTheBlockStateOnly : State.sameBlock five (five.setPort (.responding ⟨.ok, 3⟩)) :=
  ⟨rfl, rfl, rfl, rfl, rfl, rfl⟩

theorem witness_EveryStepKeepsTheInvariant : Inv ready ∧ (out (step ready)).isSome = true := ⟨inv_ready, by decide⟩

/-- The edge where the duty to hold is broken is `test_offer_changed`. -/
theorem witness_StepAnswersUnlessTheHostBreaksItsDuty : Inv (five.setOffered (some ⟨0x10000000, 0⟩)) :=
  ⟨by decide, by decide, by decide, by decide, by decide, by decide⟩

theorem witness_ResetCancelsWhateverIsInProgress :
    (halted.setInputs [⟨true, false, 0, 0, false, true⟩]).inputs = ⟨true, false, 0, 0, false, true⟩ :: [] := by decide

/-- A response taken, and one left waiting. -/
theorem witness_ResponseIsHeldUntilTaken :
    let s := five.setPort (.responding ⟨.ok, 3⟩)
    s.port = .responding ⟨.ok, 3⟩ ∧ (s.setInputs [takes]).nextEdge.rst = false ∧
      (s.setInputs [takes]).nextEdge.rspReady = true ∧ (out (step (s.setInputs [takes]))).isSome = true ∧
      s.nextEdge.rst = false ∧ s.nextEdge.rspReady = false ∧ (out (step s)).isSome = true := by decide

/-- A host that held the command before, offers the next one while the block is busy, and raises `rsp_ready` early. -/
theorem witness_SignalTransactionIsOneAtomicStep :
    let c : Command := ⟨0x1000000C, 0⟩
    let e := Edge.ofCommand c
    let b : Edge := ⟨false, true, 0x30000001, 0, true, false⟩
    let f : Edge := ⟨false, true, 0x30000001, 0, true, true⟩
    let m : Edge := ⟨false, true, 0x30000001, 0, false, true⟩
    let s := (five.setOffered (some c)).setInputs (e :: ([b] ++ f :: ([m] ++ f :: [])))
    s.port = .ready ∧ s.offered = some c ∧ e.rst = false ∧ e.offer = some c ∧ b.waits ∧ f.rst = false ∧ f.finish = true ∧
      m.leaves ∧ f.rspReady = true ∧ heldOver none ([b] ++ f :: ([m] ++ [f])) = true ∧
      s.inputs = e :: ([b] ++ f :: ([m] ++ f :: [])) ∧ (out (s.accept c)).isSome = true := by decide

/-- A host that offers its first command while the block is not yet ready. -/
theorem witness_BlockBecomesReadyInTheResetState :
    let b : Edge := ⟨false, false, 0, 0, false, false⟩
    let e : Edge := ⟨false, true, 0x90000000, 0, true, true⟩
    b.waits ∧ e.rst = false ∧ e.finish = true ∧ heldOver none ([b, b] ++ [e]) = true := by decide

theorem witness_NoRunFaults : Inv direct := inv_direct

/-- Each port state, under an edge without reset that the host may drive. -/
theorem witness_PortAtEveryEdge :
    ready.nextEdge.rst = false ∧ ready.offered = none ∧ ready.port = .ready ∧ ready.nextEdge.offer = none ∧
      (ready.setInputs [Edge.ofCommand ⟨0x10000000, 0⟩]).nextEdge.offer = some ⟨0x10000000, 0⟩ ∧
      State.reset.nextEdge.rst = false ∧ State.reset.offered = none ∧ State.reset.port = .busy none ∧
      (ready.setPort (.busy (some ⟨.ok, 1⟩))).port = .busy (some ⟨.ok, 1⟩) ∧
      (ready.setPort (.responding ⟨.ok, 1⟩)).port = .responding ⟨.ok, 1⟩ := by decide

theorem witness_AtomicStepTakesTheParametersAsArguments :
    Inv five ∧ (out (five.accept ⟨0x1000000C, 0⟩)).isSome = true ∧ (out (step five)).isSome = true ∧
      blockStep five.params five.toBlock ⟨0x1000000C, 0⟩ = .next (five.toBlock, some ⟨.ok, 0x11⟩) :=
  ⟨inv_five, by decide, by decide, rfl⟩

/-- Words before CONFIG, and an entry before both. -/
theorem witness_FromPartsInAnyOrder :
    Inv five ∧ [Instr.palWrite 0 9, .wordWrite 0 7, .cfgWrite 0x10104].Perm (fromParts 4 [7] (some [9])) :=
  ⟨inv_five, by decide⟩

theorem witness_ReadersAnswerFromTheCommands :
    Inv five ∧ five.halted = false ∧ Inv halted ∧ halted.halted = true :=
  ⟨inv_five, by decide, by refine ⟨?_, ?_, ?_, ?_, ?_, ?_⟩ <;> decide, by decide⟩

end Sys2Proof.Tests
end

section
/-! SUPPORT. One clock edge by the port state it meets (30_encoding.md R84-R86), one equation for each, and runs of edges
that leave the port as it is. -/

namespace Sys2Proof.Machine

theorem State.setPort_of_port {s : State} {p : Port} (h : s.port = p) : s.setPort p = s := by
  subst h
  rfl

theorem State.held_iff {s : State} {e : Edge} : s.held e = true ↔ s.offered = none ∨ s.offered = e.offer := by
  simp [State.held]

section EdgeEquations

variable {s : State} {e : Edge}

theorem State.edge_of_rst (hr : e.rst = true) : s.edge e = .next s.afterReset := by
  simp [State.edge, hr]

theorem State.edge_of_not_held (hr : e.rst = false) (hh : s.held e = false) :
    s.edge e = .refused .commandNotHeld := by
  simp [State.edge, hr, hh]

theorem State.edge_ready_offer {c : Command} (hr : e.rst = false) (hh : s.held e = true) (hp : s.port = .ready)
    (hc : e.offer = some c) : s.edge e = (s.setOffered none).accept c := by
  simp [State.edge, hr, hh, hp, hc]

theorem State.edge_ready_idle (hr : e.rst = false) (hh : s.held e = true) (hp : s.port = .ready)
    (hc : e.offer = none) : s.edge e = .next (s.setOffered none) := by
  simp [State.edge, hr, hh, hp, hc]

theorem State.edge_starting (hr : e.rst = false) (hh : s.held e = true) (hp : s.port = .busy none) :
    s.edge e = .next ((s.setOffered e.offer).setPort (if e.finish then .ready else .busy none)) := by
  simp [State.edge, hr, hh, hp]

theorem State.edge_busy {r : Response} (hr : e.rst = false) (hh : s.held e = true) (hp : s.port = .busy (some r)) :
    s.edge e = .next ((s.setOffered e.offer).setPort (if e.finish then .responding r else .busy (some r))) := by
  simp [State.edge, hr, hh, hp]

theorem State.edge_responding {r : Response} (hr : e.rst = false) (hh : s.held e = true)
    (hp : s.port = .responding r) :
    s.edge e =
      if e.rspReady then .next (((s.setOffered e.offer).setTaken (r :: s.taken)).setPort .ready)
      else .next (s.setOffered e.offer) := by
  simp [State.edge, hr, hh, hp]

end EdgeEquations

/-- Where a step does not answer a next state it is because the host broke its duty, or because of the command it accepts:
no other edge stops the machine. -/
theorem State.edge_stops_only_in_accept {s : State} {e : Edge} :
    (∃ t, s.edge e = .next t) ∨ s.edge e = .refused .commandNotHeld ∨
      ∃ c, s.edge e = (s.setOffered none).accept c := by
  cases hr : e.rst
  case true => exact .inl ⟨_, State.edge_of_rst hr⟩
  cases hh : s.held e
  case false => exact .inr (.inl (State.edge_of_not_held hr hh))
  cases hp : s.port with
  | ready =>
    cases hc : e.offer with
    | none => exact .inl ⟨_, State.edge_ready_idle hr hh hp hc⟩
    | some c => exact .inr (.inr ⟨c, State.edge_ready_offer hr hh hp hc⟩)
  | busy pending =>
    cases pending with
    | none => exact .inl ⟨_, State.edge_starting hr hh hp⟩
    | some r => exact .inl ⟨_, State.edge_busy hr hh hp⟩
  | responding r =>
    rw [State.edge_responding hr hh hp]
    split
    · exact .inl ⟨_, rfl⟩
    · exact .inl ⟨_, rfl⟩

theorem step_of_inputs {s : State} {e : Edge} {rest : List Edge} (h : s.inputs = e :: rest) :
    step s = (s.setInputs rest).edge e := by
  simp [step, State.nextEdge, h]

theorem step_busy_finish {s : State} {r : Response} {e : Edge} {rest : List Edge} (hp : s.port = .busy (some r))
    (hi : s.inputs = e :: rest) (hr : e.rst = false) (hf : e.finish = true) (hh : s.held e = true) :
    step s = .next (((s.setInputs rest).setOffered e.offer).setPort (.responding r)) := by
  rw [step_of_inputs hi, State.edge_busy (s := s.setInputs rest) hr hh hp, if_pos hf]

theorem step_responding_take {s : State} {r : Response} {e : Edge} {rest : List Edge} (hp : s.port = .responding r)
    (hi : s.inputs = e :: rest) (hr : e.rst = false) (ht : e.rspReady = true) (hh : s.held e = true) :
    step s = .next ((((s.setInputs rest).setOffered e.offer).setTaken (r :: s.taken)).setPort .ready) := by
  rw [step_of_inputs hi, State.edge_responding (s := s.setInputs rest) hr hh hp, if_pos ht]
  rfl

theorem step_ready_offer {s : State} {c : Command} {e : Edge} {rest : List Edge} (hp : s.port = .ready)
    (hi : s.inputs = e :: rest) (hr : e.rst = false) (hc : e.offer = some c) (hh : s.held e = true) :
    step s = ((s.setInputs rest).setOffered none).accept c := by
  rw [step_of_inputs hi, State.edge_ready_offer (s := s.setInputs rest) hr hh hp hc]

/-- Runs compose. -/
theorem run_add {m : Nat} {s t : State} (h : Sys2Proof.core.run m s = .next t) (n : Nat) :
    Sys2Proof.core.run (m + n) s = Sys2Proof.core.run n t := by
  induction m generalizing s with
  | zero =>
    cases h
    rw [Nat.zero_add]
  | succ m ih =>
    rw [Nat.add_right_comm]
    simp only [Host.Core.run] at h ⊢
    split at h
    · rename_i u hu
      simpa only [hu] using ih h
    · cases h
    · cases h

/-- An edge that leaves a machine whose port is `p` as it is, but for the command the host then owes. -/
def Edge.Keeps (p : Port) (e : Edge) : Prop :=
  ∀ u : State, u.port = p → u.held e = true → u.edge e = .next (u.setOffered e.offer)

/-- While the block does not finish, it stays busy, with a command or after reset. -/
theorem Edge.waits.keeps_busy {e : Edge} (h : e.waits) (pending : Option Response) : e.Keeps (.busy pending) := by
  intro u hp hh
  obtain ⟨hr, hf⟩ := h
  have hself : (u.setOffered e.offer).setPort (.busy pending) = u.setOffered e.offer := State.setPort_of_port hp
  cases pending with
  | none => simp [State.edge_starting hr hh hp, hf, hself]
  | some r => simp [State.edge_busy hr hh hp, hf, hself]

/-- While the host takes no response, the block goes on offering it. -/
theorem Edge.leaves.keeps_responding {e : Edge} (h : e.leaves) (r : Response) : e.Keeps (.responding r) := by
  intro u hp hh
  obtain ⟨hr, hl⟩ := h
  simp [State.edge_responding hr hh hp, hl]

/-- A run over edges that keep the port: only the edges are used up, and the command owed is the last one offered, so that
the host's duty over the edges `duty` that come next goes on from there. -/
theorem run_of_keeps {p : Port} {es rest duty : List Edge} (hes : ∀ e ∈ es, e.Keeps p) {u : State} (hp : u.port = p)
    (hi : u.inputs = es ++ rest) (hh : heldOver u.offered (es ++ duty) = true) :
    ∃ o, Sys2Proof.core.run es.length u = .next ((u.setOffered o).setInputs rest) ∧ heldOver o duty = true := by
  induction es generalizing u with
  | nil =>
    refine ⟨u.offered, ?_, hh⟩
    subst hi
    rfl
  | cons e es ih =>
    obtain ⟨hhe, hhes⟩ := Bool.and_eq_true_iff.1 hh
    have hstep : step u = .next ((u.setInputs (es ++ rest)).setOffered e.offer) := by
      rw [step_of_inputs hi]
      exact hes e List.mem_cons_self _ hp hhe
    obtain ⟨o, hrun, hduty⟩ :=
      ih (fun x hx => hes x (List.mem_cons_of_mem _ hx)) (u := (u.setInputs (es ++ rest)).setOffered e.offer) hp rfl hhes
    exact ⟨o, (run_succ_next hstep).trans hrun, hduty⟩

/-- From a command in progress to the edge `f` at which the block finishes (30_encoding.md R85). -/
theorem run_busy_to_responding {u : State} {r : Response} {f : Edge} {busy rest duty : List Edge}
    (hp : u.port = .busy (some r)) (hbusy : ∀ x ∈ busy, x.waits) (hfr : f.rst = false) (hff : f.finish = true)
    (hh : heldOver u.offered (busy ++ f :: duty) = true) (hi : u.inputs = busy ++ f :: rest) :
    Sys2Proof.core.run (busy.length + 1) u =
        .next (((u.setOffered f.offer).setInputs rest).setPort (.responding r)) ∧ heldOver f.offer duty = true := by
  obtain ⟨o, hrun, hho⟩ := run_of_keeps (fun x hx => (hbusy x hx).keeps_busy _) hp hi hh
  obtain ⟨hheld, hduty⟩ := Bool.and_eq_true_iff.1 hho
  have hfinish := step_busy_finish (s := (u.setOffered o).setInputs (f :: rest)) hp rfl hfr hff hheld
  exact ⟨(run_add hrun 1).trans (run_succ_next hfinish), hduty⟩

/-- From an offered response to the edge `g` at which the host takes it (30_encoding.md R85). -/
theorem run_responding_to_taken {u : State} {r : Response} {g : Edge} {waiting rest : List Edge}
    (hp : u.port = .responding r) (hwaiting : ∀ x ∈ waiting, x.leaves) (hgr : g.rst = false) (hgt : g.rspReady = true)
    (hh : heldOver u.offered (waiting ++ [g]) = true) (hi : u.inputs = waiting ++ g :: rest) :
    Sys2Proof.core.run (waiting.length + 1) u =
      .next { u with port := .ready, offered := g.offer, inputs := rest, taken := r :: u.taken } := by
  obtain ⟨o, hrun, hho⟩ := run_of_keeps (fun x hx => (hwaiting x hx).keeps_responding r) hp hi hh
  obtain ⟨hheld, -⟩ := Bool.and_eq_true_iff.1 hho
  have htake := step_responding_take (s := (u.setOffered o).setInputs (g :: rest)) hp rfl hgr hgt hheld
  exact (run_add hrun 1).trans (run_succ_next htake)

end Sys2Proof.Machine
end

section
/-! SUPPORT. Faults: the states from which a command faults, that there is none that meets `Inv`, and that every step keeps
`Inv`. -/

namespace Sys2Proof.Machine

/-- Some element in range has a word that does not exist, or a mapped raw code past the palette table. Both need an
illegal CONFIG (log 10). -/
def State.reachesAbsentWord (s : State) : Prop :=
  ∃ i < Config.nElem, s.elementExists i = false ∨
    ((getRaw s.bpv s.ws i).toNat < s.palLen ∧ Config.palDepth ≤ (getRaw s.bpv s.ws i).toNat)

/-- The inversion of a fault of `exec`: only the three commands that reach an element can raise one. -/
theorem exec_fault {i : Instr} {s : State} {f : Fault} (h : exec i s = .fault f) : s.reachesAbsentWord := by
  cases i <;> simp only [exec] at h
  case getRaw idx =>
    unfold execGetRaw at h
    split at h; · cases h
    split at h; · cases h
    rename_i hi
    split at h
    · exact ⟨idx.toNat, Nat.lt_of_not_le hi, .inl ‹_›⟩
    · cases h
  case setRaw idx v =>
    unfold execSetRaw at h
    split at h; · cases h
    split at h; · cases h
    rename_i hi
    split at h; · cases h
    split at h
    · exact ⟨idx.toNat, Nat.lt_of_not_le hi, .inl ‹_›⟩
    · cases h
  case get idx =>
    unfold execGet at h
    split at h; · cases h
    split at h; · cases h
    rename_i hi
    split at h
    · exact ⟨idx.toNat, Nat.lt_of_not_le hi, .inl ‹_›⟩
    split at h; · cases h
    split at h; · cases h
    rename_i hlen
    split at h
    · exact ⟨idx.toNat, Nat.lt_of_not_le hi, .inr ⟨Nat.lt_of_not_le hlen, ‹_›⟩⟩
    · cases h
  all_goals
    simp only [execLightGet, execWordRead, execWordWrite, execPalRead, execPalWrite, execCfgRead, execCfgWrite,
      execInitEmpty, execStatusRead, execLwordRead, execLwordWrite] at h
    (repeat' split at h) <;> cases h

theorem Inv.not_reachesAbsentWord {s : State} (hs : Inv s) : ¬ s.reachesAbsentWord := by
  rintro ⟨i, hi, hex | ⟨hlt, hge⟩⟩
  · rw [State.elementExists_of_legal hs.config hi] at hex
    cases hex
  · have := State.palLen_le hs.config
    rw [palDepth_eq] at hge
    omega

/-- From a state that meets the invariant every accepted command completes (60_exceptions.md R182). -/
theorem Inv.accept_completes {s : State} (hs : Inv s) (c : Command) : ∃ t, s.accept c = .next t := by
  unfold State.accept
  split
  · rename_i i _
    cases h : exec i s with
    | next t => exact ⟨t, rfl⟩
    | fault f => exact absurd (exec_fault h) hs.not_reachesAbsentWord
    | refused r => exact absurd h (exec_not_refused i s r)
  · exact ⟨_, State.raise_eq _ _⟩

/-- `Inv` does not speak of the edges to come or of the host's offer, and of PORT and of the responses taken only through
the responses they hold. -/
theorem Inv.of_toBlock_eq {s t : State} (hs : Inv s) (hb : t.toBlock = s.toBlock) (hp : t.params = s.params)
    (hpending : ∀ r ∈ t.port.response, responseDataRule r) (htaken : ∀ r ∈ t.taken, responseDataRule r) : Inv t := by
  refine ⟨?_, ?_, ?_, ?_, hpending, htaken⟩
  · rw [hb]; exact hs.config
  · rw [hb]; exact hs.status
  · rw [Memory.wf, hb]; exact hs.memory
  · rw [hb, hp]; exact hs.noLight

theorem Inv.setOffered {s : State} (hs : Inv s) (o : Option Command) : Inv (s.setOffered o) :=
  hs.of_toBlock_eq rfl rfl hs.pending hs.taken

theorem Inv.setInputs {s : State} (hs : Inv s) (es : List Edge) : Inv (s.setInputs es) :=
  hs.of_toBlock_eq rfl rfl hs.pending hs.taken

theorem Inv.answered {s : State} (hs : Inv s) {c : StatusCode} {d : Word} (h : responseDataRule ⟨c, d⟩) :
    Inv (s.answered c d) :=
  hs.of_toBlock_eq rfl rfl (fun r hr => by cases hr; exact h) hs.taken

theorem cfgLegal_configEmpty : cfgLegal (configEmpty.setWidth 64) = true := by decide

theorem inv_resetWith (p : Params) : Inv (State.resetWith p) :=
  ⟨cfgLegal_configEmpty, ⟨rfl, rfl⟩, ⟨Store.zeroed_wf _, Store.zeroed_wf _, Store.zeroed_wf _⟩, fun _ => rfl,
    (fun _ h => nomatch h), (fun _ h => nomatch h)⟩

theorem Inv.afterReset {s : State} (hs : Inv s) : Inv s.afterReset :=
  (inv_resetWith s.params).of_toBlock_eq rfl rfl (fun _ h => nomatch h) hs.taken

/-- What a fatal error leaves in STATUS is legal (10_state.md R25). -/
theorem Status.legal_of_fatal {c : StatusCode} (hc : c.fatal = true) {idx : Index} (hi : idx.toNat < Config.nElem) :
    Status.legal ⟨true, c.code, idx⟩ := by
  have hcode : c.code = 2#4 ∨ c.code = 3#4 := by
    cases c with
    | invalidRawValue => exact .inl rfl
    | unmappedRawCode => exact .inr rfl
    | _ => cases hc
  exact (if_pos rfl).mpr ⟨hcode, hi⟩

/-- Everything that executing a command can do keeps the invariant. -/
theorem Effect.inv {s t : State} (h : Effect s t) (hs : Inv s) : Inv t := by
  obtain ⟨hws, hpal, hls⟩ := hs.memory
  have okData : ∀ d, responseDataRule ⟨.ok, d⟩ := fun _ hne => absurd rfl hne
  cases h with
  | answer c d hd => exact hs.answered hd
  | fatal c idx _ hc hi =>
    have : Inv (s.setStatus ⟨true, c.code, idx⟩) := { hs with status := Status.legal_of_fatal hc hi }
    exact this.answered fun _ => rfl
  | setRaw idx v _ hi hv he =>
    have hb := State.bpv_bounds hs.config
    have hw := setRaw_wf (by omega) hws (of_decide_eq_true he) v
    have : Inv (s.setWs (Machine.setRaw s.bpv s.ws idx.toNat v)) := { hs with memory := ⟨hw, hpal, hls⟩ }
    exact this.answered (okData _)
  | word a v _ ha =>
    have : Inv (s.setWs (s.ws.write a v)) := { hs with memory := ⟨Store.write_wf hws ha v, hpal, hls⟩ }
    exact this.answered (okData _)
  | pal a v _ ha =>
    have : Inv (s.setPal (s.pal.write a v)) := { hs with memory := ⟨hws, Store.write_wf hpal ha v, hls⟩ }
    exact this.answered (okData _)
  | lword a v _ hl ha =>
    have : Inv (s.setLs (s.ls.write a v)) :=
      { hs with
        memory := ⟨hws, hpal, Store.write_wf hls ha v⟩
        noLight := fun hn => absurd (hl.symm.trans hn) (by decide) }
    exact this.answered (okData _)
  | config d _ hd =>
    have : Inv (s.setConfig (d.setWidth 32)) :=
      { hs with config := by rw [State.setConfig_config, setWidth_setWidth_of_cfgLegal hd, hd] }
    exact this.answered (okData _)
  | empty _ =>
    have : Inv (((s.setConfig configEmpty).setWs Store.zeroed).setPal Store.zeroed) :=
      { hs with config := cfgLegal_configEmpty, memory := ⟨Store.zeroed_wf _, Store.zeroed_wf _, hls⟩ }
    exact this.answered (okData _)

/-- Every clock edge keeps the invariant. -/
theorem EdgeCase.inv {s t : State} {e : Edge} (h : EdgeCase s e t) (hs : Inv s) : Inv t := by
  cases h with
  | reset _ => exact hs.afterReset
  | command c i _ _ _ _ ht => exact (exec_effect ht).inv (hs.setOffered none)
  | illegal c why _ _ _ _ => exact (hs.setOffered none).answered fun _ => rfl
  | wait o p _ hp => exact hs.of_toBlock_eq rfl rfl (fun r hr => hs.pending r (hp ▸ hr)) hs.taken
  | taken r _ _ hp =>
    refine hs.of_toBlock_eq rfl rfl (fun _ h => nomatch h) fun q hq => ?_
    rcases List.mem_cons.1 hq with rfl | hq
    · exact hs.pending q (by rw [hp]; rfl)
    · exact hs.taken q hq

theorem Inv.of_step {s t : State} (hs : Inv s) (h : step s = .next t) : Inv t :=
  (step_case h).inv (hs.setInputs _)

theorem Inv.step_ne_fault {s : State} (hs : Inv s) (f : Fault) : step s ≠ .fault f := by
  intro h
  unfold step at h
  rcases State.edge_stops_only_in_accept (s := s.setInputs s.inputs.tail) (e := s.nextEdge) with
    ⟨t, ht⟩ | hr | ⟨c, hc⟩
  · rw [ht] at h; cases h
  · rw [hr] at h; cases h
  · obtain ⟨t, ht⟩ := ((hs.setInputs _).setOffered none).accept_completes c
    rw [hc, ht] at h; cases h

end Sys2Proof.Machine
end

section
/-! SUPPORT. The parameters, the spec's step, and light commands without the light store. -/

namespace Sys2Proof.Machine

theorem accept_of_decode {s : State} {c : Command} {i : Instr} (h : decode s.params.hasLight c = .ok i) :
    s.accept c = exec i s := by
  rw [State.accept, h]

/-- No clock edge changes the parameters (10_state.md R32). -/
theorem EdgeCase.params_eq {s t : State} {e : Edge} (h : EdgeCase s e t) : t.params = s.params := by
  cases h with
  | command c i _ _ _ hd ht =>
    obtain ⟨r, hr⟩ := accept_frame ((accept_of_decode (s := s.setOffered none) hd).trans ht)
    rw [hr]
    rfl
  | reset _ | illegal _ _ _ _ _ _ | wait _ _ _ _ | taken _ _ _ _ => rfl

/-- An accepted command neither reads nor writes what the host will drive and what it owes (00_scope.md R7). -/
theorem accept_setInputs_setOffered {s t : State} {c : Command} (h : s.accept c = .next t) (es : List Edge)
    (o : Option Command) :
    ((s.setInputs es).setOffered o).accept c = .next ((t.setInputs es).setOffered o) := by
  obtain ⟨r, ht⟩ := accept_frame h
  rw [accept_next (s := s) (u := (s.setInputs es).setOffered o) rfl rfl h, ht]
  rfl

/-- The next states of `blockStep`, through the machine it runs. -/
theorem blockStep_next_iff {p : Params} {b b' : Block} {c : Command} {r : Option Response} :
    blockStep p b c = .next (b', r) ↔
      ∃ t, (State.ofBlock p b).accept c = .next t ∧ t.toBlock = b' ∧ t.port.response = r := by
  unfold blockStep
  cases (State.ofBlock p b).accept c <;> simp

/-- The state an accepted command leaves gives the block and the response of `blockStep`. -/
theorem blockStep_of_accept {s t : State} {c : Command} (h : s.accept c = .next t) :
    blockStep s.params s.toBlock c = .next (t.toBlock, t.port.response) :=
  blockStep_next_iff.2 ⟨_, accept_next (s := s) rfl rfl h, rfl, rfl⟩

theorem opNumber_encode (i : Instr) : opNumber (encode i) = i.opcode.toNat := by
  obtain ⟨hop, -, -, -⟩ := Laws.encodingFields_all i
  rw [← opField_toNat, hop]

theorem accept_of_illegalWord {s : State} {c : Command} (h : illegalWord s.params.hasLight c = true) :
    s.accept c = .next (s.answered .illegalCommand 0#64) := by
  rcases decode_cases s.params.hasLight c with ⟨-, why, hd⟩ | ⟨hlegal, -⟩
  · rw [State.accept, hd]
    rfl
  · rw [h] at hlegal
    cases hlegal

/-- The last clause of 30_encoding.md R78. -/
theorem illegalWord_encode_of_needsLight {i : Instr} (h : i.needsLight = true) :
    illegalWord false (encode i) = true := by
  have hop : [0x4, 0xD, 0xE].contains (opNumber (encode i)) = true := by
    rw [opNumber_encode]
    cases i with
    | lightGet _ | lwordRead _ | lwordWrite _ _ => rfl
    | _ => cases h
  simp [illegalWord, -List.contains_eq_mem, hop]

/-- `exec` itself refuses a light command where there is no light store (log 16). -/
theorem exec_of_needsLight {i : Instr} {s : State} (h : i.needsLight = true) (hl : s.params.hasLight = false) :
    exec i s = .next (s.answered .illegalCommand 0#64) := by
  cases i with
  | lightGet _ | lwordRead _ | lwordWrite _ _ => exact if_pos hl
  | _ => cases h

/-- A 32-bit word of the opcode table is a command word, with DATA 0 (log 21). -/
theorem commandOfBits_32 (w : Nat) : commandOfBits 32 w = ⟨BitVec.ofNat 32 w, 0⟩ := by
  have hdata : w % 2 ^ 32 / 2 ^ 32 = 0 := Nat.div_eq_of_lt (Nat.mod_lt _ (by decide))
  rw [commandOfBits, hdata]
  congr 1
  exact BitVec.eq_of_toNat_eq (by simp)

end Sys2Proof.Machine
end

section
/-! The obligations of 00_scope.md. -/

namespace Sys2Proof.Machine

/-- Settles O7: the offered command transfers at the next edge, the port being READY and nothing owed. -/
theorem fetchWordRunsAtTheNextStep : Obligations.FetchWordRunsAtTheNextStep := by
  unfold Obligations.FetchWordRunsAtTheNextStep
  intro s w i hd
  have hoffer : (Edge.ofCommand (commandOfBits 32 w)).offer = some ⟨BitVec.ofNat 32 w, 0⟩ := by
    rw [commandOfBits_32]
    rfl
  rw [step_ready_offer (s := s.withFetchWord 32 w) rfl rfl rfl hoffer rfl]
  exact accept_of_decode hd

/-- Settles O27: the opcode of each of the three is one of the last clause of 30_encoding.md R78. -/
theorem lightCommandsNeedTheLightStore : Obligations.LightCommandsNeedTheLightStore := by
  unfold Obligations.LightCommandsNeedTheLightStore
  intro s idx d hl i hi
  have hneeds : i.needsLight = true := by
    simp only [List.mem_cons, List.not_mem_nil, or_false] at hi
    rcases hi with rfl | rfl | rfl <;> rfl
  exact ⟨accept_of_illegalWord (hl ▸ illegalWord_encode_of_needsLight hneeds), exec_of_needsLight hneeds hl⟩

/-- Settles O54: the transfer edge does the atomic step (`accept_next`); the busy edges, the edges at which the
response waits and the edge that takes it leave the block alone. -/
theorem signalTransactionIsOneAtomicStep : Obligations.SignalTransactionIsOneAtomicStep := by
  unfold Obligations.SignalTransactionIsOneAtomicStep
  intro s t c e f g busy waiting rest hp ho her hec hbusy hfr hff hwaiting hgr hgt hh hi hacc
  obtain ⟨r, ht⟩ := accept_frame hacc
  have hport : t.port = .busy (some r) := by rw [ht]
  have htaken : t.taken = s.taken := by rw [ht]
  refine ⟨r, hport, ?_⟩
  have hheld : s.held e = true := State.held_iff.2 (hec ▸ ho)
  have htransfer : step s = .next ((t.setInputs (busy ++ f :: (waiting ++ g :: rest))).setOffered none) :=
    (step_ready_offer hp hi her hec hheld).trans (accept_setInputs_setOffered hacc _ _)
  obtain ⟨hresponding, hduty⟩ := run_busy_to_responding
    (u := (t.setInputs (busy ++ f :: (waiting ++ g :: rest))).setOffered none) hport hbusy hfr hff hh rfl
  have hlength : busy.length + waiting.length + 3 = (busy.length + 1) + (waiting.length + 1) + 1 := by omega
  rw [hlength, run_succ_next htransfer, run_add hresponding,
    run_responding_to_taken rfl hwaiting hgr hgt hduty rfl, ← htaken]
  rfl

/-- Settles O55, by induction on the number of steps: no step faults, and each keeps the invariant. -/
theorem noRunFaults : Obligations.NoRunFaults := by
  unfold Obligations.NoRunFaults SafeFor
  intro s n hs f
  induction n generalizing s with
  | zero => exact nofun
  | succ n ih =>
    cases h : step s with
    | next t => rw [run_succ_next h]; exact ih t (hs.of_step h)
    | fault g => exact absurd h (hs.step_ne_fault g)
    | refused q => rw [run_succ_refused h]; exact nofun

/-- Settles O57: `accept` reads the parameters and the block alone (`accept_next`), so it is `blockStep` on them. -/
theorem atomicStepTakesTheParametersAsArguments : Obligations.AtomicStepTakesTheParametersAsArguments := by
  unfold Obligations.AtomicStepTakesTheParametersAsArguments
  refine ⟨fun s t c h => ?_, fun s c b r h => ?_, fun s c hs => ?_, fun p => ⟨rfl, rfl⟩, fun s t h => ?_⟩
  · obtain ⟨r, ht⟩ := accept_frame h
    have hport : t.port.response = some r := by rw [ht]; rfl
    exact ⟨r, hport ▸ blockStep_of_accept h, ht⟩
  · obtain ⟨t, ht, rfl, rfl⟩ := blockStep_next_iff.1 h
    obtain ⟨r, hr⟩ := accept_frame ht
    have hport : t.port = .busy (some r) := by rw [hr]
    refine ⟨_, accept_next (s := State.ofBlock s.params s.toBlock) rfl rfl ht, rfl, ?_⟩
    rw [hport]
    rfl
  · obtain ⟨t, ht⟩ := hs.accept_completes c
    obtain ⟨r, hr⟩ := accept_frame ht
    have hport : t.port.response = some r := by rw [hr]; rfl
    exact ⟨t.toBlock, r, hport ▸ blockStep_of_accept ht⟩
  · exact (step_case h).params_eq

end Sys2Proof.Machine
end

section
/-! SUPPORT. What may change STATUS, and states that agree on the block and the parameters. -/

namespace Sys2Proof.Machine

/-- The one effect of a command that changes STATUS is a fatal error (10_state.md R25). -/
theorem Effect.fatal_of_status_ne {s t : State} (h : Effect s t) (hne : t.status ≠ s.status) :
    s.status.fatal = false ∧ ∃ (c : StatusCode) (idx : Index), c.fatal = true ∧ idx.toNat < Config.nElem ∧
      t.status = ⟨true, c.code, idx⟩ ∧ t.port = .busy (some ⟨c, 0#64⟩) := by
  cases h with
  | fatal c idx hs hc hi => exact ⟨hs, c, idx, hc, hi, rfl, rfl⟩
  | answer _ _ _ | setRaw _ _ _ _ _ _ | word _ _ _ _ | pal _ _ _ _ | lword _ _ _ _ _ | config _ _ _ | empty _ =>
    exact absurd rfl hne

/-- No command changes the parameters (10_state.md R32). -/
theorem exec_params_eq {i : Instr} {s t : State} (h : exec i s = .next t) : t.params = s.params := by
  cases exec_effect h <;> rfl

theorem State.sameBlock_iff {s t : State} : State.sameBlock s t ↔ s.params = t.params ∧ s.toBlock = t.toBlock := by
  obtain ⟨⟨_, _, _, _, _⟩, _⟩ := s
  obtain ⟨⟨_, _, _, _, _⟩, _⟩ := t
  simp only [State.sameBlock, Block.mk.injEq]

/-- A relation on outcomes may be weakened at the next states that they answer. -/
theorem sameOutcome.imp {R R' : State → State → Prop} {o o' : Host.Outcome State Fault Refusal}
    (h : sameOutcome R o o') (hR : ∀ t t', o = .next t → R t t' → R' t t') : sameOutcome R' o o' := by
  cases o with
  | next t =>
    cases o' with
    | next t' => exact hR t t' rfl h
    | fault _ | refused _ => exact h
  | fault _ | refused _ => cases o' <;> exact h

end Sys2Proof.Machine
end

section
/-! The obligations of 10_state.md. -/

namespace Sys2Proof.Machine

/-- Settles O48, by the cases of a clock edge (`EdgeCase.inv`) and of a command's effect (`Effect.inv`). -/
theorem everyStepKeepsTheInvariant : Obligations.EveryStepKeepsTheInvariant := by
  unfold Obligations.EveryStepKeepsTheInvariant
  intro s t hs h
  exact hs.of_step h

/-- Settles O44: of the cases of a clock edge without reset, only a command that executes may change STATUS. -/
theorem statusChangesOnlyByFatalErrorOrReset : Obligations.StatusChangesOnlyByFatalErrorOrReset := by
  unfold Obligations.StatusChangesOnlyByFatalErrorOrReset
  intro s t h hne hr
  cases step_case h with
  | reset hrst => exact absurd (hr.symm.trans hrst) Bool.false_ne_true
  | command c i _ _ _ _ ht => exact (exec_effect ht).fatal_of_status_ne hne
  | illegal _ _ _ _ _ _ | wait _ _ _ _ | taken _ _ _ _ => exact absurd rfl hne

/-- Settles O46: `exec` does the same to the block and PORT of both machines (`exec_sameOutcome`), and keeps the
parameters of each. -/
theorem commandsDependOnTheBlockStateOnly : Obligations.CommandsDependOnTheBlockStateOnly := by
  unfold Obligations.CommandsDependOnTheBlockStateOnly
  intro i s u hsu
  obtain ⟨hp, hb⟩ := State.sameBlock_iff.1 hsu
  refine (exec_sameOutcome i hp.symm hb.symm).imp fun t t' ht ht' => ?_
  subst ht'
  exact ⟨State.sameBlock_iff.2 ⟨(exec_params_eq ht).trans hp, rfl⟩, rfl⟩

/-- Settles O47. -/
theorem resetMeetsTheInvariant : Obligations.ResetMeetsTheInvariant := by
  unfold Obligations.ResetMeetsTheInvariant
  exact inv_resetWith

/-- Settles O50: only the word STATUS_READ returns depends on the parameters. -/
theorem resetValues : Obligations.ResetValues := by
  unfold Obligations.ResetValues
  intro p
  have hstatus : (State.resetWith p).statusReg =
      (if p.hasLight then if p.lightByteOrder = .big then 0x0000000300000000 else 0x0000000100000000 else 0) := by
    obtain ⟨hasLight, order⟩ := p
    cases hasLight <;> cases order <;> decide
  obtain ⟨hbpv, hen, hlen⟩ : cfgBpv configEmpty = 4 ∧ cfgPalEn configEmpty = true ∧ cfgPalLen configEmpty = 1 := by decide
  exact ⟨rfl, hbpv, hen, hlen, rfl, hstatus, Store.read_nil, Store.read_nil, Store.read_nil, rfl⟩

end Sys2Proof.Machine
end

section
/-! SUPPORT. Which parts of the block each command writes, that every edge at which the host keeps its duty completes, and
the codec on two Word Stores that agree on the words of an element. -/

namespace Sys2Proof.Machine

/-- The state a command answers from: nothing of it is written, or the parts that are the command's own. -/
inductive Writes (s : State) : Instr → State → Prop where
  /-- A command that only reads, or one that is refused with a non-fatal error. -/
  | nothing (i : Instr) : Writes s i s
  | setRaw (idx : Index) (v : Word) (hi : idx.toNat < Config.nElem) :
    Writes s (.setRaw idx v) (s.setWs (setRaw s.bpv s.ws idx.toNat v))
  /-- The fatal INVALID_RAW_VALUE of 40_codec.md R95. -/
  | invalidRaw (idx : Index) (v : Word) (st : Status) : Writes s (.setRaw idx v) (s.setStatus st)
  /-- The fatal UNMAPPED_RAW_CODE of 41_palette.md R110. -/
  | unmappedRaw (idx : Index) (st : Status) : Writes s (.get idx) (s.setStatus st)
  | word (idx : Index) (d : Word) : Writes s (.wordWrite idx d) (s.setWs (s.ws.write idx.toNat d))
  | pal (idx : Index) (d : Word) : Writes s (.palWrite idx d) (s.setPal (s.pal.write idx.toNat d))
  | lword (idx : Index) (d : Word) : Writes s (.lwordWrite idx d) (s.setLs (s.ls.write idx.toNat d))
  | config (d : Word) : Writes s (.cfgWrite d) (s.setConfig (d.setWidth 32))
  | empty : Writes s .initEmpty (((s.setConfig configEmpty).setWs Store.zeroed).setPal Store.zeroed)

/-- If the outcome is a next state, it is a state of `R` with a response in progress. -/
def AnswersFrom (R : State → Prop) (o : Host.Outcome State Fault Refusal) : Prop :=
  ∀ t, o = .next t → ∃ u c d, R u ∧ t = u.answered c d

section AnswersFrom

variable {R : State → Prop}

theorem answersFrom_respond {u : State} (h : R u) (c : StatusCode) (d : Word) : AnswersFrom R (u.respond c d) := by
  rintro t ⟨⟩
  exact ⟨u, c, d, h, rfl⟩

theorem answersFrom_fault (f : Fault) : AnswersFrom R (.fault f) := nofun

theorem answersFrom_ite {P : Prop} [Decidable P] {a b : Host.Outcome State Fault Refusal} (ha : AnswersFrom R a)
    (hb : ¬ P → AnswersFrom R b) : AnswersFrom R (if P then a else b) := by
  split
  · exact ha
  · exact hb ‹_›

end AnswersFrom

/-- The inversion of `exec` that says which command it was: a command that completes answers after writing what is its own. -/
theorem exec_writes (i : Instr) (s : State) : AnswersFrom (Writes s i) (exec i s) := by
  have unchanged (c : StatusCode) (d : Word) : AnswersFrom (Writes s i) (s.respond c d) :=
    answersFrom_respond (.nothing i) c d
  have error (c : StatusCode) : AnswersFrom (Writes s i) (s.raise c) := unchanged c 0#64
  cases i with
  | getRaw idx =>
    exact answersFrom_ite (error _) fun _ => answersFrom_ite (error _) fun _ =>
      answersFrom_ite (answersFrom_fault _) fun _ => unchanged _ _
  | setRaw idx v =>
    exact answersFrom_ite (error _) fun _ => answersFrom_ite (error _) fun hi =>
      answersFrom_ite (answersFrom_respond (.invalidRaw idx v _) _ _) fun _ =>
        answersFrom_ite (answersFrom_fault _) fun _ =>
          answersFrom_respond (.setRaw idx v (Nat.lt_of_not_le hi)) _ _
  | get idx =>
    exact answersFrom_ite (error _) fun _ => answersFrom_ite (error _) fun _ =>
      answersFrom_ite (answersFrom_fault _) fun _ => answersFrom_ite (unchanged _ _) fun _ =>
        answersFrom_ite (answersFrom_respond (.unmappedRaw idx _) _ _) fun _ =>
          answersFrom_ite (answersFrom_fault _) fun _ => unchanged _ _
  | lightGet idx | lwordRead idx =>
    exact answersFrom_ite (error _) fun _ => answersFrom_ite (error _) fun _ =>
      answersFrom_ite (error _) fun _ => unchanged _ _
  | wordRead idx | palRead idx =>
    exact answersFrom_ite (error _) fun _ => answersFrom_ite (error _) fun _ => unchanged _ _
  | wordWrite idx d =>
    exact answersFrom_ite (error _) fun _ => answersFrom_ite (error _) fun _ =>
      answersFrom_respond (.word idx d) _ _
  | palWrite idx d =>
    exact answersFrom_ite (error _) fun _ => answersFrom_ite (error _) fun _ =>
      answersFrom_respond (.pal idx d) _ _
  | cfgRead => exact answersFrom_ite (error _) fun _ => unchanged _ _
  | cfgWrite d =>
    exact answersFrom_ite (error _) fun _ => answersFrom_ite (error _) fun _ =>
      answersFrom_respond (.config d) _ _
  | initEmpty => exact answersFrom_ite (error _) fun _ => answersFrom_respond .empty _ _
  | statusRead => exact unchanged _ _
  | lwordWrite idx d =>
    exact answersFrom_ite (error _) fun _ => answersFrom_ite (error _) fun _ => answersFrom_ite (error _) fun _ =>
      answersFrom_respond (.lword idx d) _ _

section WritesFrame

variable {s u : State} {i : Instr}

/-- The parameters and the host's side are no command's to write. -/
theorem Writes.host_eq (h : Writes s i u) :
    u.params = s.params ∧ u.inputs = s.inputs ∧ u.offered = s.offered ∧ u.taken = s.taken := by
  cases h <;> exact ⟨rfl, rfl, rfl, rfl⟩

theorem Writes.ws_eq (h : Writes s i u) (hset : ∀ idx d, i ≠ .setRaw idx d) (hword : ∀ idx d, i ≠ .wordWrite idx d)
    (hempty : i ≠ .initEmpty) : u.ws = s.ws := by
  cases h with
  | setRaw idx v _ => exact absurd rfl (hset idx v)
  | word idx d => exact absurd rfl (hword idx d)
  | empty => exact absurd rfl hempty
  | _ => rfl

theorem Writes.pal_eq (h : Writes s i u) (hpal : ∀ idx d, i ≠ .palWrite idx d) (hempty : i ≠ .initEmpty) :
    u.pal = s.pal := by
  cases h with
  | pal idx d => exact absurd rfl (hpal idx d)
  | empty => exact absurd rfl hempty
  | _ => rfl

theorem Writes.ls_eq (h : Writes s i u) (hlword : ∀ idx d, i ≠ .lwordWrite idx d) : u.ls = s.ls := by
  cases h with
  | lword idx d => exact absurd rfl (hlword idx d)
  | _ => rfl

theorem Writes.config_eq (h : Writes s i u) (hcfg : ∀ d, i ≠ .cfgWrite d) (hempty : i ≠ .initEmpty) :
    u.config = s.config := by
  cases h with
  | config d => exact absurd rfl (hcfg d)
  | empty => exact absurd rfl hempty
  | _ => rfl

theorem Writes.status_eq (h : Writes s i u) (hset : ∀ idx d, i ≠ .setRaw idx d) (hget : ∀ idx, i ≠ .get idx) :
    u.status = s.status := by
  cases h with
  | invalidRaw idx v _ => exact absurd rfl (hset idx v)
  | unmappedRaw idx _ => exact absurd rfl (hget idx)
  | _ => rfl

end WritesFrame

/-- An edge at which the host keeps its duty completes when every command it may offer does. -/
theorem State.edge_completes_of_held {s : State} {e : Edge} (hr : e.rst = false) (hh : s.held e = true)
    (haccept : ∀ c, ∃ t, (s.setOffered none).accept c = .next t) : ∃ t, s.edge e = .next t := by
  cases hp : s.port with
  | ready =>
    cases hc : e.offer with
    | none => exact ⟨_, State.edge_ready_idle hr hh hp hc⟩
    | some c => rw [State.edge_ready_offer hr hh hp hc]; exact haccept c
  | busy pending =>
    cases pending with
    | none => exact ⟨_, State.edge_starting hr hh hp⟩
    | some r => exact ⟨_, State.edge_busy hr hh hp⟩
  | responding r =>
    rw [State.edge_responding hr hh hp]
    split
    · exact ⟨_, rfl⟩
    · exact ⟨_, rfl⟩

/-- `sameOutcome_ite`, the branches being taken under the test. -/
theorem sameOutcome_ite_of {R : State → State → Prop} {P : Prop} [Decidable P]
    {a a' b b' : Host.Outcome State Fault Refusal} (ha : P → sameOutcome R a a') (hb : ¬ P → sameOutcome R b b') :
    sameOutcome R (if P then a else b) (if P then a' else b') := by
  split
  · exact ha ‹_›
  · exact hb ‹_›

/-- The word at `b` after the same write to two memories that agree on it. -/
theorem Store.read_write_congr {st tt : Store} (hs : st.canonical) (ht : tt.canonical) {a b : Nat} {v u : Word}
    (hvu : u = v) (hb : tt.read b = st.read b) : (tt.write a u).read b = (st.write a v).read b := by
  rw [Store.read_write hs, Store.read_write ht, hvu, hb]

section ElementWords

variable {b i : Nat} {ws ws' : Store} (h0 : ws'.read (place b i).w0 = ws.read (place b i).w0)
  (h1 : ws'.read (place b i).w1 = ws.read (place b i).w1)

include h0 h1

/-- GetRaw reads no word but those the element lies in. -/
theorem getRaw_congr : getRaw b ws' i = getRaw b ws i := by
  simp only [getRaw, h0, h1]

/-- What SetRaw makes of a word depends on that word and on those the element lies in. -/
theorem setRaw_read_congr (hc : ws.canonical) (hc' : ws'.canonical) (v : Word) {a : Nat} (ha : ws'.read a = ws.read a) :
    (setRaw b ws' i v).read a = (setRaw b ws i v).read a := by
  simp only [place] at h0 h1
  cases hs : (place b i).straddle
  · rw [setRaw_single hs, setRaw_single hs]
    exact Store.read_write_congr hc hc' (by rw [h0]) ha
  · have hlow {k : Nat} (hk : ws'.read k = ws.read k) : (setRawLow b ws' i v).read k = (setRawLow b ws i v).read k :=
      Store.read_write_congr hc hc' (by rw [h0]) hk
    rw [setRaw_straddle hs, setRaw_straddle hs]
    exact Store.read_write_congr (Store.write_canonical hc _ _) (Store.write_canonical hc' _ _) (by rw [hlow h1]) (hlow ha)

end ElementWords

/-- Every word of an element in range is active (20_memory.md R55). -/
theorem Inv.place_active {s : State} (hs : Inv s) {idx : Index} (hi : idx.toNat < Config.nElem) :
    (place s.bpv idx.toNat).w0 < 64 * s.bpv ∧ (place s.bpv idx.toNat).w1 < 64 * s.bpv := by
  have hb : 1 ≤ s.bpv := Nat.le_trans (by decide) (State.bpv_bounds hs.config).1
  have h1 := place_w1_lt hb hi
  exact ⟨Nat.lt_of_le_of_lt (place_w0_le _ _ hb) h1, h1⟩

section ActiveWords

variable {s : State} (hs : Inv s) {ws' : Store} (hagree : ∀ w < 64 * s.bpv, ws'.read w = s.ws.read w)

include hs hagree

/-- On a Word Store that agrees on the active words an element in range reads the same. -/
theorem Inv.getRaw_eq_of_active {idx : Index} (hi : idx.toNat < Config.nElem) :
    getRaw s.bpv ws' idx.toNat = getRaw s.bpv s.ws idx.toNat := by
  obtain ⟨h0, h1⟩ := hs.place_active hi
  exact getRaw_congr (hagree _ h0) (hagree _ h1)

theorem Inv.execGetRaw_of_active (idx : Index) :
    sameOutcome (fun t t' => t' = t.setWs ws') (execGetRaw idx s) (execGetRaw idx (s.setWs ws')) := by
  refine sameOutcome_ite_of (fun _ => rfl) fun _ => sameOutcome_ite_of (fun _ => rfl) fun hi =>
    sameOutcome_ite_of (fun _ => rfl) fun _ => ?_
  rw [State.setWs_bpv, State.setWs_ws, hs.getRaw_eq_of_active hagree (Nat.lt_of_not_le hi)]
  rfl

theorem Inv.execGet_of_active (idx : Index) :
    sameOutcome (fun t t' => t' = t.setWs ws') (execGet idx s) (execGet idx (s.setWs ws')) := by
  refine sameOutcome_ite_of (fun _ => rfl) fun _ => sameOutcome_ite_of (fun _ => rfl) fun hi =>
    sameOutcome_ite_of (fun _ => rfl) fun _ => ?_
  rw [State.setWs_bpv, State.setWs_ws, hs.getRaw_eq_of_active hagree (Nat.lt_of_not_le hi)]
  exact sameOutcome_ite rfl (sameOutcome_ite rfl (sameOutcome_ite rfl rfl))

theorem Inv.execSetRaw_of_active (hc' : ws'.canonical) (idx : Index) (v : Word) :
    sameOutcome (fun t t' => t' = t.setWs t'.ws ∧ ∀ w < 64 * s.bpv, t'.ws.read w = t.ws.read w)
      (execSetRaw idx v s) (execSetRaw idx v (s.setWs ws')) := by
  refine sameOutcome_ite_of (fun _ => ⟨rfl, hagree⟩) fun _ => sameOutcome_ite_of (fun _ => ⟨rfl, hagree⟩) fun hi =>
    sameOutcome_ite_of (fun _ => ⟨rfl, hagree⟩) fun _ => sameOutcome_ite_of (fun _ => rfl) fun _ =>
      ⟨rfl, fun w hw => ?_⟩
  obtain ⟨h0, h1⟩ := hs.place_active (Nat.lt_of_not_le hi)
  exact setRaw_read_congr (hagree _ h0) (hagree _ h1) hs.memory.1.canonical hc' v (hagree w hw)

end ActiveWords

end Sys2Proof.Machine
end

section
/-! The obligations of 20_memory.md. -/

namespace Sys2Proof.Machine

/-- Settles O18: the words of an element in range are active (`Inv.place_active`), and the codec reads and writes no
others. -/
theorem codecKeepsToTheActiveWords : Obligations.CodecKeepsToTheActiveWords := by
  unfold Obligations.CodecKeepsToTheActiveWords
  refine ⟨fun s t idx v hs i hi h w hw => ?_, fun s ws' idx hs hagree i hi => ?_,
    fun s ws' idx v hs hwf hagree => hs.execSetRaw_of_active hagree hwf.canonical idx v⟩
  · obtain ⟨u, c, d, hu, rfl⟩ := exec_writes i s t h
    simp only [List.mem_cons, List.not_mem_nil, or_false] at hi
    rcases hi with rfl | rfl | rfl
    · exact congrArg (·.read w) (hu.ws_eq nofun nofun nofun)
    · cases hu with
      | nothing _ | invalidRaw _ _ _ => rfl
      | setRaw _ _ hidx =>
        obtain ⟨h0, h1⟩ := hs.place_active hidx
        exact setRaw_read_other hs.memory.1.canonical v (by omega) (by omega)
    · exact congrArg (·.read w) (hu.ws_eq nofun nofun nofun)
  · simp only [List.mem_cons, List.not_mem_nil, or_false] at hi
    rcases hi with rfl | rfl
    · exact hs.execGetRaw_of_active hagree idx
    · exact hs.execGet_of_active hagree idx

/-- Settles O45, from the inversion that names what each command writes (`exec_writes`). -/
theorem eachCommandWritesOnlyItsOwn : Obligations.EachCommandWritesOnlyItsOwn := by
  unfold Obligations.EachCommandWritesOnlyItsOwn
  intro i s t h
  obtain ⟨u, c, d, hu, rfl⟩ := exec_writes i s t h
  obtain ⟨hparams, hinputs, hoffered, htaken⟩ := hu.host_eq
  exact ⟨hparams, hinputs, hoffered, htaken, hu.ws_eq, hu.pal_eq, hu.ls_eq, hu.config_eq, hu.status_eq⟩

/-- Settles O49: a reset edge completes, an edge that breaks the duty is refused, and at every other edge the command
accepted, if there is one, completes (`Inv.accept_completes`). -/
theorem stepAnswersUnlessTheHostBreaksItsDuty : Obligations.StepAnswersUnlessTheHostBreaksItsDuty := by
  unfold Obligations.StepAnswersUnlessTheHostBreaksItsDuty step
  intro s hs
  cases hr : s.nextEdge.rst
  case true => exact .inl ⟨⟨_, State.edge_of_rst hr⟩, .inl rfl⟩
  by_cases hduty : s.offered = none ∨ s.offered = s.nextEdge.offer
  · have hh : (s.setInputs s.inputs.tail).held s.nextEdge = true := State.held_iff.2 hduty
    have haccept := ((hs.setInputs s.inputs.tail).setOffered none).accept_completes
    exact .inl ⟨State.edge_completes_of_held hr hh haccept, .inr hduty⟩
  · have hh : (s.setInputs s.inputs.tail).held s.nextEdge = false :=
      Bool.eq_false_iff.2 fun hh => hduty (State.held_iff.1 hh)
    exact .inr ⟨State.edge_of_not_held hr hh, rfl, not_or.1 hduty⟩

end Sys2Proof.Machine
end

section
/-! SUPPORT. The encoder against the decoder, and the illegal words by the clauses of 30_encoding.md R78. -/

namespace Sys2Proof.Machine

/-- The two fields of a command word do not overlap (30_encoding.md R71). -/
theorem commandWord_toNat (op : BitVec 4) (idx : Index) :
    (commandWord op idx).toNat = op.toNat * 2 ^ 28 + idx.toNat := by
  have hop := op.isLt
  have hidx : idx.toNat < 2 ^ 28 := Nat.lt_trans idx.isLt (by decide)
  have hshift : op.toNat <<< 28 % 2 ^ 32 = op.toNat <<< 28 := Nat.mod_eq_of_lt (by rw [Nat.shiftLeft_eq]; omega)
  have hop32 : op.toNat % 2 ^ 32 = op.toNat := Nat.mod_eq_of_lt (by omega)
  have hidx32 : idx.toNat % 2 ^ 32 = idx.toNat := Nat.mod_eq_of_lt (by omega)
  rw [commandWord, BitVec.toNat_or, BitVec.toNat_shiftLeft, BitVec.toNat_setWidth, BitVec.toNat_setWidth, hop32, hidx32,
    hshift, ← Nat.shiftLeft_add_eq_or_of_lt hidx, Nat.shiftLeft_eq]

/-- A light command that exists is on a block with the light store. -/
theorem hasLight_of_needsLight {hasLight : Bool} {i : Instr} (hn : i.needsLight = true)
    (h : i.wellFormed hasLight = true) : hasLight = true := by
  simpa [Instr.wellFormed, hn] using h

/-- Decoding inverts encoding: the encoder writes RSV 0, the opcode selects the arm of the command, and the tests of the
arms that have one hold, of IDX because the encoder writes 0 and of the light store because the command exists. -/
theorem decode_encode {hasLight : Bool} {i : Instr} (h : i.wellFormed hasLight = true) :
    decode hasLight (encode i) = .ok i := by
  obtain ⟨hop, hrsv, hidx, -⟩ := Laws.encodingFields_all i
  rw [decode, if_pos hrsv, decodeOpcode, hop, hidx]
  cases i with
  | lightGet _ | lwordRead _ | lwordWrite _ _ => exact if_pos (hasLight_of_needsLight rfl h)
  | cfgRead | cfgWrite _ | initEmpty | statusRead => exact if_pos hidx
  | _ => rfl

/-- A block with the light store has every command, so it decodes every encoding. -/
theorem decode_true_encode (i : Instr) : decode true (encode i) = .ok i :=
  decode_encode (Bool.or_true _)

theorem encode_injective : Function.Injective encode := by
  intro i j h
  exact Except.ok.inj (by rw [← decode_true_encode i, h, decode_true_encode])

/-- The inversion of a decoding that succeeds. -/
theorem decodedAs_of_decode {hasLight : Bool} {c : Command} {i : Instr} (h : decode hasLight c = .ok i) :
    DecodedAs hasLight c i := by
  rcases decode_cases hasLight c with ⟨-, why, herror⟩ | ⟨-, j, hj, hdecoded⟩
  · rw [h] at herror
    cases herror
  · rw [h] at hj
    cases hj
    exact hdecoded

/-- The three fields are the whole command word. -/
theorem DecodedAs.encode_word {hasLight : Bool} {c : Command} {i : Instr} (h : DecodedAs hasLight c i) :
    (encode i).word = c.word := by
  have hword : (encode i).word.toNat = i.opcode.toNat * 2 ^ 28 + i.index.toNat := commandWord_toNat _ _
  have hrsv := h.reserved
  refine BitVec.eq_of_toNat_eq ?_
  rw [hword, h.opcode, h.index]
  unfold opNumber idxNumber
  unfold rsvNumber at hrsv
  omega

/-- A command without DATA has operand 0 (30_encoding.md R72, R81). -/
theorem operand_eq_zero_of_opcode {i : Instr} (h : i.opcode.toNat ∉ [0x2, 0x6, 0x8, 0xA, 0xE]) : i.operand = 0#64 := by
  cases i with
  | setRaw _ _ | wordWrite _ _ | palWrite _ _ | cfgWrite _ | lwordWrite _ _ => exact absurd (by simp [Instr.opcode]) h
  | _ => rfl

/-- Without DATA the command word alone fixes the instruction: both encode back to it, with operand 0. -/
theorem DecodedAs.eq_of_word_eq {hasLight : Bool} {c c' : Command} {i j : Instr} (hi : DecodedAs hasLight c i)
    (hj : DecodedAs hasLight c' j) (hw : c.word = c'.word) (hop : opNumber c ∉ [0x2, 0x6, 0x8, 0xA, 0xE]) : i = j := by
  have hop' : opNumber c' = opNumber c := by rw [opNumber, opNumber, hw]
  have hword : (encode i).word = (encode j).word := by rw [hi.encode_word, hj.encode_word, hw]
  have hdata : i.operand = j.operand := by
    rw [operand_eq_zero_of_opcode (hi.opcode ▸ hop), operand_eq_zero_of_opcode (by rwa [hj.opcode, hop'])]
  exact encode_injective (congrArg₂ Command.mk hword hdata)

/-- `illegalWord` is the disjunction of the four cases of 30_encoding.md R78. -/
theorem illegalWord_iff {hasLight : Bool} {c : Command} :
    illegalWord hasLight c = true ↔
      opNumber c = 0x0 ∨ opNumber c = 0xF ∨ rsvNumber c ≠ 0 ∨ (opNumber c ∈ [0x9, 0xA, 0xB, 0xC] ∧ idxNumber c ≠ 0) ∨
        (opNumber c ∈ [0x4, 0xD, 0xE] ∧ hasLight = false) := by
  simp only [illegalWord, Bool.or_eq_true, Bool.and_eq_true, beq_iff_eq, bne_iff_ne, List.contains_iff_mem,
    Bool.not_eq_true', or_assoc]

/-- A legal command decodes and is executed. -/
theorem accept_of_legalWord {s : State} {c : Command} (h : illegalWord s.params.hasLight c = false) :
    ∃ i, decode s.params.hasLight c = .ok i ∧ s.accept c = exec i s := by
  rcases decode_cases s.params.hasLight c with ⟨hillegal, -⟩ | ⟨-, i, hi, -⟩
  · rw [h] at hillegal
    cases hillegal
  · exact ⟨i, hi, accept_of_decode hi⟩

end Sys2Proof.Machine
end

section
/-! SUPPORT. What the assembler makes of operands that fit and of those that do not (30_encoding.md R81, R82). -/

namespace Sys2Proof.Machine

theorem asmIndex_of_lt {i : Nat} (h : i < 65536) : asmIndex i = some (BitVec.ofNat 16 i) := if_pos h

theorem asmIndex_of_le {i : Nat} (h : 65536 ≤ i) : asmIndex i = none := if_neg (Nat.not_lt.2 h)

theorem asmData_of_lt {d : Nat} (h : d < 2 ^ 64) : asmData d = some (BitVec.ofNat 64 d) := if_pos h

theorem asmI_of_lt {i : Nat} (h : i < 65536) (f : Index → Instr) : asmI f i = some [f (BitVec.ofNat 16 i)] := by
  rw [asmI, asmIndex_of_lt h, Option.map_some]

theorem asmI_of_le {i : Nat} (h : 65536 ≤ i) (f : Index → Instr) : asmI f i = none := by
  rw [asmI, asmIndex_of_le h, Option.map_none]

theorem asmD_of_lt {d : Nat} (h : d < 2 ^ 64) (f : Word → Instr) : asmD f d = some [f (BitVec.ofNat 64 d)] := by
  rw [asmD, asmData_of_lt h, Option.map_some]

theorem asmID_of_lt {i d : Nat} (hi : i < 65536) (hd : d < 2 ^ 64) (f : Index → Word → Instr) :
    asmID f i d = some [f (BitVec.ofNat 16 i) (BitVec.ofNat 64 d)] := by
  rw [asmID, asmIndex_of_lt hi, asmData_of_lt hd, Option.bind_some, Option.map_some]

theorem asmID_of_le {i : Nat} (h : 65536 ≤ i) (f : Index → Word → Instr) (d : Nat) : asmID f i d = none := by
  rw [asmID, asmIndex_of_le h, Option.bind_none]

/-- The same command at successive addresses, as long as the last of them fits (30_encoding.md R82). -/
theorem asmRun_of_fits (f : Index → Word → Instr) {a : Nat} {ds : List Nat} (ha : a + ds.length ≤ 65536)
    (hds : ∀ d ∈ ds, d < 2 ^ 64) :
    asmRun f a ds = some (ds.mapIdx fun k d => f (BitVec.ofNat 16 (a + k)) (BitVec.ofNat 64 d)) := by
  induction ds generalizing a with
  | nil => rfl
  | cons d ds ih =>
    obtain ⟨hd, hrest⟩ := List.forall_mem_cons.1 hds
    rw [List.length_cons] at ha
    have hfirst := asmID_of_lt (show a < 65536 by omega) hd f
    have hmore := ih (show a + 1 + ds.length ≤ 65536 by omega) hrest
    rw [asmRun, hfirst, hmore, List.mapIdx_cons]
    simp [Nat.add_comm, Nat.add_left_comm]

/-- The words of a line that stands for one command, from the command's opcode, index and DATA. -/
theorem assemble_of_expand (op : BitVec 4) {l : AsmLine} {i : Instr} {n : Nat} {d : Word} (hl : l.expand = some [i])
    (hop : i.opcode = op) (hi : i.index = BitVec.ofNat 16 n) (hd : i.operand = d) (hn : n < 65536) :
    l.assemble = some [⟨BitVec.ofNat 32 (op.toNat * 2 ^ 28 + n), d⟩] := by
  have hlt := op.isLt
  have hword : commandWord op (BitVec.ofNat 16 n) = BitVec.ofNat 32 (op.toNat * 2 ^ 28 + n) := by
    refine BitVec.eq_of_toNat_eq ?_
    rw [commandWord_toNat, BitVec.toNat_ofNat, BitVec.toNat_ofNat]
    omega
  rw [AsmLine.assemble, hl, Option.map_some, List.map_singleton, encode, hop, hi, hd, hword]

theorem assemble_of_index_zero (op : BitVec 4) {l : AsmLine} {i : Instr} {d : Word} (hl : l.expand = some [i])
    (hop : i.opcode = op) (hi : i.index = 0#16) (hd : i.operand = d) :
    l.assemble = some [⟨BitVec.ofNat 32 (op.toNat * 2 ^ 28), d⟩] := by
  simpa only [Nat.add_zero] using assemble_of_expand op (n := 0) hl hop hi hd (by decide)

/-- A refused line has no words. -/
theorem assemble_of_refused {l : AsmLine} (h : l.expand = none) : l.assemble = none := by
  rw [AsmLine.assemble, h, Option.map_none]

end Sys2Proof.Machine
end

section
/-! SUPPORT. What the port drives, the duty of the host at an edge that completes, and a range check that fails. -/

namespace Sys2Proof.Machine

/-- An edge without reset that completes is one at which the host keeps its duty (30_encoding.md R86). -/
theorem State.held_of_edge_next {s t : State} {e : Edge} (hr : e.rst = false) (h : s.edge e = .next t) :
    s.held e = true := by
  cases hh : s.held e
  · rw [State.edge_of_not_held hr hh] at h
    cases h
  · rfl

theorem State.cmdReady_iff {s : State} {rst : Bool} : s.cmdReady rst = true ↔ rst = false ∧ s.port = .ready := by
  simp [State.cmdReady]

theorem State.rspOffered_iff {s : State} {rst : Bool} {r : Response} :
    s.rspOffered rst = some r ↔ rst = false ∧ s.port = .responding r := by
  unfold State.rspOffered
  cases rst <;> cases s.port <;> simp

/-- The halted check and a failed range check, in the order of 60_exceptions.md R186. -/
theorem raise_of_range_check {P : Prop} [Decidable P] {s : State} {code : StatusCode}
    {o : Host.Outcome State Fault Refusal} (hs : s.halted = false) (h : P) :
    (if s.halted then s.raise .halted else if P then s.raise code else o) = .next (s.answered code 0#64) := by
  rw [if_neg (Bool.eq_false_iff.1 hs), if_pos h, State.raise_eq]

/-- The same of a light command on a block with the light store. -/
theorem raise_of_light_range_check {P : Prop} [Decidable P] {s : State} {code : StatusCode}
    {o : Host.Outcome State Fault Refusal} (hl : s.params.hasLight = true) (hs : s.halted = false) (h : P) :
    (if s.params.hasLight = false then s.raise .illegalCommand
      else if s.halted then s.raise .halted else if P then s.raise code else o) = .next (s.answered code 0#64) := by
  rw [if_neg (by simp [hl]), raise_of_range_check hs h]

end Sys2Proof.Machine
end

section
/-! The obligations of 30_encoding.md. -/

namespace Sys2Proof.Machine

/-- Settles O2, by the case split of `decode_encode` over the commands. -/
theorem decodeEncodeRoundTrip : Obligations.DecodeEncodeRoundTrip := by
  unfold Obligations.DecodeEncodeRoundTrip
  intro hasLight i h
  exact decode_encode h

/-- Settles O3, from what a decoded command keeps of the fields (`DecodedAs`). -/
theorem decodedCommandEncodesBack : Obligations.DecodedCommandEncodesBack := by
  unfold Obligations.DecodedCommandEncodesBack
  intro hasLight c i h
  have hdecoded := decodedAs_of_decode h
  exact ⟨hdecoded.encode_word, hdecoded.wellFormed, hdecoded.operand⟩

/-- Settles O4: `illegalWord` is the rule's disjunction. -/
theorem illegalCommandsAreThoseOfTheRule : Obligations.IllegalCommandsAreThoseOfTheRule := by
  unfold Obligations.IllegalCommandsAreThoseOfTheRule
  intro s c
  refine ⟨fun h => ⟨accept_of_illegalWord (illegalWord_iff.2 h), rfl⟩, fun h => accept_of_legalWord ?_⟩
  exact Bool.eq_false_iff.2 (mt illegalWord_iff.1 h)

/-- Settles O5: two commands with such a word are both illegal or decode to the same instruction
(`DecodedAs.eq_of_word_eq`); the five that take DATA are encodings. -/
theorem dataIsIgnoredByCommandsWithoutData : Obligations.DataIsIgnoredByCommandsWithoutData := by
  unfold Obligations.DataIsIgnoredByCommandsWithoutData
  constructor
  · intro s w d d' hop
    cases hlegal : illegalWord s.params.hasLight ⟨w, d⟩
    · obtain ⟨i, hi, hacc⟩ := accept_of_legalWord hlegal
      obtain ⟨j, hj, hacc'⟩ := accept_of_legalWord (c := ⟨w, d'⟩) hlegal
      rw [hacc, hacc', (decodedAs_of_decode hi).eq_of_word_eq (decodedAs_of_decode hj) rfl hop]
    · rw [accept_of_illegalWord hlegal, accept_of_illegalWord (c := ⟨w, d'⟩) hlegal]
  · intro i d
    exact ⟨decode_true_encode (.setRaw i d), decode_true_encode (.wordWrite i d), decode_true_encode (.palWrite i d),
      decode_true_encode (.cfgWrite d), decode_true_encode (.lwordWrite i d)⟩

/-- Settles O8: each line stands for one command (`assemble_of_expand`), or its index is refused. -/
theorem assemblerWritesTheTable : Obligations.AssemblerWritesTheTable := by
  unfold Obligations.AssemblerWritesTheTable
  constructor
  · intro i d hi hd
    exact ⟨assemble_of_expand 0x1 (asmI_of_lt hi .getRaw) rfl rfl rfl hi,
      assemble_of_expand 0x2 (asmID_of_lt hi hd .setRaw) rfl rfl rfl hi,
      assemble_of_expand 0x3 (asmI_of_lt hi .get) rfl rfl rfl hi,
      assemble_of_expand 0x4 (asmI_of_lt hi .lightGet) rfl rfl rfl hi,
      assemble_of_expand 0x5 (asmI_of_lt hi .wordRead) rfl rfl rfl hi,
      assemble_of_expand 0x6 (asmID_of_lt hi hd .wordWrite) rfl rfl rfl hi,
      assemble_of_expand 0x7 (asmI_of_lt hi .palRead) rfl rfl rfl hi,
      assemble_of_expand 0x8 (asmID_of_lt hi hd .palWrite) rfl rfl rfl hi,
      assemble_of_index_zero 0x9 (i := .cfgRead) rfl rfl rfl rfl,
      assemble_of_index_zero 0xA (asmD_of_lt hd .cfgWrite) rfl rfl rfl,
      assemble_of_index_zero 0xB (i := .initEmpty) rfl rfl rfl rfl,
      assemble_of_index_zero 0xC (i := .statusRead) rfl rfl rfl rfl,
      assemble_of_expand 0xD (asmI_of_lt hi .lwordRead) rfl rfl rfl hi,
      assemble_of_expand 0xE (asmID_of_lt hi hd .lwordWrite) rfl rfl rfl hi⟩
  · intro i d h
    have refusedI (f : Index → Instr) := asmI_of_le h f
    have refusedID (f : Index → Word → Instr) := asmID_of_le h f d
    exact ⟨assemble_of_refused (refusedI .getRaw), assemble_of_refused (refusedID .setRaw),
      assemble_of_refused (refusedI .get), assemble_of_refused (refusedI .lightGet),
      assemble_of_refused (refusedI .wordRead), assemble_of_refused (refusedID .wordWrite),
      assemble_of_refused (refusedI .palRead), assemble_of_refused (refusedID .palWrite),
      assemble_of_refused (refusedI .lwordRead), assemble_of_refused (refusedID .lwordWrite)⟩

/-- Settles O9; the two loads are runs of one command at successive addresses (`asmRun_of_fits`). -/
theorem pseudoInstructionsExpand : Obligations.PseudoInstructionsExpand := by
  unfold Obligations.PseudoInstructionsExpand
  refine ⟨fun b e n h => ?_, fun _ _ => rfl, rfl, rfl, fun vs hpos hmax hvs => ?_, fun w ds hpos hmax hds => ?_, rfl⟩
  · rw [AsmLine.expand, cfgImage, Nat.shiftLeft_eq, Nat.shiftLeft_eq, asmD_of_lt h]
  · have hfits : 0 + vs.length ≤ 65536 := by omega
    rw [AsmLine.expand, if_pos ⟨hpos, hmax⟩, asmRun_of_fits _ hfits hvs]
    simp only [Nat.zero_add]
  · rw [AsmLine.expand, if_pos (Nat.lt_of_succ_le hpos), asmRun_of_fits _ hmax hds]

/-- Settles O53: the edge is one at which the host keeps its duty, so it takes the response or leaves it. -/
theorem responseIsHeldUntilTaken : Obligations.ResponseIsHeldUntilTaken := by
  unfold Obligations.ResponseIsHeldUntilTaken
  intro s t r hp hr h
  have hready : s.cmdReady false = false := by rw [State.cmdReady, hp]; rfl
  have hedge : (s.setInputs s.inputs.tail).edge s.nextEdge = .next t := h
  rw [State.edge_responding hr (State.held_of_edge_next hr hedge) hp] at hedge
  refine ⟨hready, State.rspOffered_iff.2 ⟨rfl, hp⟩, ?_⟩
  split at hedge <;> cases hedge
  · rename_i htakes
    rw [if_pos htakes]
    exact ⟨State.sameBlock_iff.2 ⟨rfl, rfl⟩, rfl, rfl, State.cmdReady_iff.2 ⟨rfl, rfl⟩⟩
  · rename_i hleaves
    rw [if_neg hleaves]
    exact ⟨State.sameBlock_iff.2 ⟨rfl, rfl⟩, hp, rfl, State.rspOffered_iff.2 ⟨rfl, hp⟩⟩

/-- Settles O56, by the equation of a clock edge for each state of the port. -/
theorem portAtEveryEdge : Obligations.PortAtEveryEdge := by
  unfold Obligations.PortAtEveryEdge
  refine fun s => ⟨fun _ => State.cmdReady_iff, fun _ _ => State.rspOffered_iff, fun hr hduty => ?_⟩
  have hh : (s.setInputs s.inputs.tail).held s.nextEdge = true := State.held_iff.2 hduty
  exact ⟨fun hp hc => State.edge_ready_idle hr hh hp hc, fun c hp hc => State.edge_ready_offer hr hh hp hc,
    fun hp => State.edge_starting hr hh hp, fun r hp => State.edge_busy hr hh hp,
    fun r hp => State.edge_responding hr hh hp⟩

/-- Settles O1: the words are those the encoder writes. -/
theorem writtenWordsDecode : Obligations.WrittenWordsDecode := by
  unfold Obligations.WrittenWordsDecode
  exact ⟨decode_true_encode (.getRaw 12), decode_true_encode (.setRaw 12 17), decode_true_encode (.get 100),
    decode_true_encode (.lightGet 1), decode_true_encode (.wordWrite 831 5), decode_true_encode (.palRead 255),
    decode_true_encode (.cfgWrite 0x200105), decode_true_encode (.lwordWrite 255 7)⟩

/-- Settles O6: the offered command transfers at the edge and is decoded. -/
theorem stepRunsTheDecodedCommand : Obligations.StepRunsTheDecodedCommand := by
  unfold Obligations.StepRunsTheDecodedCommand
  intro s e rest c i hp hi hr hc hduty hd
  have hh : s.held e = true := State.held_iff.2 (hc ▸ hduty)
  rw [step_ready_offer hp hi hr hc hh]
  exact accept_of_decode hd

/-- Settles O39: the range check comes after the halted check and, for a light command, after the check for the light
store. -/
theorem outOfRangeOperandsAreReported : Obligations.OutOfRangeOperandsAreReported := by
  unfold Obligations.OutOfRangeOperandsAreReported
  intro s idx d hs
  simp only [List.mem_cons, List.not_mem_nil, or_false]
  refine ⟨fun h i hi hexists => ?_, fun h i hi => ?_, fun h i hi hexists => ?_⟩
  · rcases hi with rfl | rfl | rfl | rfl
    · exact raise_of_range_check hs h
    · exact raise_of_range_check hs h
    · exact raise_of_range_check hs h
    · exact raise_of_light_range_check (hasLight_of_needsLight rfl hexists) hs h
  · rcases hi with rfl | rfl <;> exact raise_of_range_check hs h
  · rcases hi with rfl | rfl | rfl | rfl
    · exact raise_of_range_check hs h
    · exact raise_of_range_check hs h
    · exact raise_of_light_range_check (hasLight_of_needsLight rfl hexists) hs h
    · exact raise_of_light_range_check (hasLight_of_needsLight rfl hexists) hs h

end Sys2Proof.Machine
end

section
/-! SUPPORT. What GET_RAW and SET_RAW answer on an element in range, by the first check that fails (40_codec.md R94, R95). -/

namespace Sys2Proof.Machine

section ElementInRange

variable {s : State} {idx : Index} (hs : s.halted = false) (hi : idx.toNat < Config.nElem)

include hs hi

theorem exec_getRaw_of_legal (hc : cfgLegal (s.config.setWidth 64) = true) :
    exec (.getRaw idx) s = .next (s.answered .ok (getRaw s.bpv s.ws idx.toNat)) := by
  simp only [exec, execGetRaw, hs, Nat.not_le.2 hi, State.elementExists_of_legal hc hi, State.respond_eq,
    Bool.false_eq_true, Bool.true_eq_false, if_false]

theorem exec_setRaw_of_legal (hc : cfgLegal (s.config.setWidth 64) = true) {v : Word} (hv : v.toNat < 2 ^ s.bpv) :
    exec (.setRaw idx v) s = .next ((s.setWs (setRaw s.bpv s.ws idx.toNat v)).answered .ok 0#64) := by
  simp only [exec, execSetRaw, hs, Nat.not_le.2 hi, Nat.not_le.2 hv, State.elementExists_of_legal hc hi,
    State.respond_eq, Bool.false_eq_true, Bool.true_eq_false, if_false]

theorem exec_setRaw_of_too_large {v : Word} (hv : 2 ^ s.bpv ≤ v.toNat) :
    exec (.setRaw idx v) s = .next ((s.setStatus ⟨true, 2#4, idx⟩).answered .invalidRawValue 0#64) := by
  simp only [exec, execSetRaw, hs, Nat.not_le.2 hi, hv, Bool.false_eq_true, if_false, if_true]
  exact State.raiseFatal_running hs .invalidRawValue idx

end ElementInRange

section SameCodecState

variable {s t : State} (hb : s.bpv = t.bpv) (hw : s.ws = t.ws) (hst : s.status = t.status)

include hst in
theorem State.halted_congr : s.halted = t.halted := congrArg Status.fatal hst

include hb in
theorem State.elementExists_congr (i : Nat) : s.elementExists i = t.elementExists i := by
  rw [State.elementExists, State.elementExists, hb]

include hw hst in
theorem State.answered_congr (c : StatusCode) (d : Word) :
    (s.answered c d).port = (t.answered c d).port ∧ (s.answered c d).ws = (t.answered c d).ws ∧
      (s.answered c d).status = (t.answered c d).status := ⟨rfl, hw, hst⟩

include hb hw hst

/-- GET_RAW reads no other part of the block than BPV, the Word Store and whether the block is halted. -/
theorem execGetRaw_sameOutcome (idx : Index) :
    sameOutcome (fun s' t' => s'.port = t'.port ∧ s'.ws = t'.ws ∧ s'.status = t'.status)
      (execGetRaw idx s) (execGetRaw idx t) := by
  simp only [execGetRaw, State.halted_congr hst, State.elementExists_congr hb, hb, hw]
  have hanswer := State.answered_congr hw hst
  exact sameOutcome_ite (hanswer _ _) <| sameOutcome_ite (hanswer _ _) <| sameOutcome_ite rfl (hanswer _ _)

/-- SET_RAW reads no other part of the block than BPV, the Word Store and STATUS. -/
theorem execSetRaw_sameOutcome (idx : Index) (v : Word) :
    sameOutcome (fun s' t' => s'.port = t'.port ∧ s'.ws = t'.ws ∧ s'.status = t'.status)
      (execSetRaw idx v s) (execSetRaw idx v t) := by
  simp only [execSetRaw, State.raiseFatal, State.halted_congr hst, State.elementExists_congr hb, hb, hw, hst]
  have hanswer := State.answered_congr hw hst
  exact sameOutcome_ite (hanswer _ _) <| sameOutcome_ite (hanswer _ _) <| sameOutcome_ite ⟨rfl, hw, rfl⟩ <|
    sameOutcome_ite rfl ⟨rfl, rfl, hst⟩

end SameCodecState

end Sys2Proof.Machine
end

section
/-! SUPPORT. The codec's functions against one another, through the flat bit string (40_codec.md R96, R98). -/

namespace Sys2Proof.Machine

/-- The low bits of a number, by place. -/
theorem mod_two_pow_eq_sum_testBit (n b : Nat) :
    n % 2 ^ b = ∑ k ∈ Finset.range b, (n.testBit k).toNat <<< k := by
  induction b with
  | zero => simp [Nat.mod_one]
  | succ b ih =>
    rw [Finset.sum_range_succ, ← ih, Nat.mod_pow_succ, Nat.toNat_testBit, Nat.shiftLeft_eq, Nat.mul_comm]

/-- Two elements share no bit of the flat string (20_memory.md R52). -/
theorem elements_disjoint {b i j p : Nat} (hij : i ≠ j) (hp : b * i ≤ p ∧ p < b * i + b) :
    ¬ (b * j ≤ p ∧ p < b * j + b) := by
  rcases Nat.lt_or_gt_of_ne hij with hlt | hgt
  · have : b * (i + 1) ≤ b * j := Nat.mul_le_mul_left b hlt
    rw [Nat.mul_add] at this
    omega
  · have : b * (j + 1) ≤ b * i := Nat.mul_le_mul_left b hgt
    rw [Nat.mul_add] at this
    omega

section Elements

variable {b : Nat} (hb : 1 ≤ b) (hb' : b ≤ 64)

include hb hb'

theorem getRaw_toNat_lt (ws : Store) (i : Nat) : (getRaw b ws i).toNat < 2 ^ b := by
  refine Nat.lt_pow_two_of_testBit _ fun k hk => ?_
  rw [← BitVec.getLsbD, getRaw_getLsbD hb hb', decide_eq_false (Nat.not_lt.2 hk), Bool.false_and]

/-- 40_codec.md R96, of GetRaw. -/
theorem getRaw_toNat_eq_sum (ws : Store) (i : Nat) :
    (getRaw b ws i).toNat = ∑ k ∈ Finset.range b, (ws.flat (b * i + k)).toNat <<< k := by
  rw [← Nat.mod_eq_of_lt (getRaw_toNat_lt hb hb' ws i), mod_two_pow_eq_sum_testBit]
  refine Finset.sum_congr rfl fun k hk => ?_
  rw [← BitVec.getLsbD, getRaw_getLsbD hb hb', decide_eq_true (Finset.mem_range.1 hk), Bool.true_and]

variable {ws : Store} (h : ws.canonical) {i j : Nat} {u v : Word} (hv : v.toNat < 2 ^ b)

include h hv

theorem getRaw_setRaw_same (i : Nat) : getRaw b (setRaw b ws i v) i = v := by
  refine BitVec.eq_of_getLsbD_eq fun k _ => ?_
  rw [getRaw_getLsbD hb hb', setRaw_flat hb hb' h i hv]
  by_cases hk : k < b
  · simp [hk]
  · simp [hk, getLsbD_of_lt_two_pow hv (Nat.le_of_not_lt hk)]

theorem getRaw_setRaw_other (hij : i ≠ j) : getRaw b (setRaw b ws i v) j = getRaw b ws j := by
  refine BitVec.eq_of_getLsbD_eq fun k _ => ?_
  rw [getRaw_getLsbD hb hb', getRaw_getLsbD hb hb', setRaw_flat hb hb' h i hv]
  by_cases hk : k < b
  · rw [if_neg (elements_disjoint hij.symm ⟨Nat.le_add_right _ _, Nat.add_lt_add_left hk _⟩)]
  · simp [hk]

/-- The last of two writes to one element wins (40_codec.md R98). -/
theorem setRaw_setRaw_same (i : Nat) (hu : u.toNat < 2 ^ b) :
    setRaw b (setRaw b ws i v) i u = setRaw b ws i u := by
  have hset := setRaw_canonical b h i v
  refine Store.ext_flat (setRaw_canonical b hset i u) (setRaw_canonical b h i u) fun p => ?_
  rw [setRaw_flat hb hb' hset i hu, setRaw_flat hb hb' h i hu, setRaw_flat hb hb' h i hv]
  split <;> rfl

theorem setRaw_comm (hij : i ≠ j) (hu : u.toNat < 2 ^ b) :
    setRaw b (setRaw b ws i v) j u = setRaw b (setRaw b ws j u) i v := by
  have hi := setRaw_canonical b h i v
  have hj := setRaw_canonical b h j u
  refine Store.ext_flat (setRaw_canonical b hi j u) (setRaw_canonical b hj i v) fun p => ?_
  rw [setRaw_flat hb hb' hi j hu, setRaw_flat hb hb' hj i hv, setRaw_flat hb hb' h i hv, setRaw_flat hb hb' h j hu]
  by_cases hp : b * i ≤ p ∧ p < b * i + b
  · rw [if_pos hp, if_neg (elements_disjoint hij hp), if_pos hp]
  · rw [if_neg hp, if_neg hp]

end Elements

end Sys2Proof.Machine
end

section
/-! SUPPORT. Where elements straddle, from one period of 64 elements (40_codec.md R91, R97). -/

namespace Sys2Proof.Machine

/-- 64 elements of width `b` fill `b` whole words. -/
theorem place_add_64 (b i : Nat) :
    (place b (i + 64)).straddle = (place b i).straddle ∧ (place b (i + 64)).off = (place b i).off := by
  constructor
  · refine Bool.eq_iff_iff.2 ?_
    simp only [place, Place.straddle, Nat.mul_add, bne_iff_ne]
    omega
  · simp only [place, Nat.mul_add]
    omega

theorem straddle_periodic (b : Nat) : Function.Periodic (fun i => (place b i).straddle) 64 :=
  fun i => (place_add_64 b i).1

theorem off_periodic (b : Nat) : Function.Periodic (fun i => (place b i).off) 64 :=
  fun i => (place_add_64 b i).2

/-- A property of period `a` holds in `m` periods as often as `m` times in the first. -/
theorem countP_range_mul_of_periodic {p : Nat → Bool} {a : Nat} (hp : Function.Periodic p a) (m : Nat) :
    (List.range (m * a)).countP p = m * (List.range a).countP p := by
  induction m with
  | zero => simp
  | succ m ih =>
    have hshift : p ∘ (m * a + ·) = p := funext fun i => by
      simpa [Nat.add_comm] using hp.nat_mul m i
    rw [Nat.succ_mul, Nat.succ_mul, List.range_add, List.countP_append, List.countP_map, hshift, ih]

/-- The straddling elements of the first period. -/
def straddlers (b : Nat) : List Nat := (List.range 64).filter fun i => (place b i).straddle

theorem mem_straddlers {b i : Nat} : i ∈ straddlers b ↔ i < 64 ∧ (place b i).straddle = true := by
  simp [straddlers]

theorem countP_straddle (b : Nat) :
    (List.range 4096).countP (fun i => (place b i).straddle) = 64 * (straddlers b).length := by
  rw [straddlers, ← List.countP_eq_length_filter]
  exact countP_range_mul_of_periodic (straddle_periodic b) 64

/-- The offsets at which elements straddle all occur in the first period. -/
theorem exists_straddle_off_iff {b off : Nat} :
    (∃ i < 4096, (place b i).straddle = true ∧ (place b i).off = off) ↔ ∃ i ∈ straddlers b, (place b i).off = off := by
  constructor
  · rintro ⟨i, -, hs, ho⟩
    exact ⟨i % 64, mem_straddlers.2 ⟨Nat.mod_lt _ (by decide), ((straddle_periodic b).map_mod_nat i).trans hs⟩,
      ((off_periodic b).map_mod_nat i).trans ho⟩
  · rintro ⟨i, hi, ho⟩
    obtain ⟨hlt, hs⟩ := mem_straddlers.1 hi
    exact ⟨i, Nat.lt_trans hlt (by decide), hs, ho⟩

/-- What starts the list of straddling elements of the first period starts the whole list. -/
theorem take_filter_straddle {b : Nat} {first : List Nat} (h : first <+: straddlers b) :
    ((List.range 4096).filter fun i => (place b i).straddle).take first.length = first := by
  have hrange : List.range 64 <+: List.range 4096 := ⟨_, (List.range_add (n := 64) (m := 4032)).symm⟩
  exact (List.prefix_iff_eq_take.1 (h.trans (hrange.filter _))).symm

/-- A row of the table of 40_codec.md R97 (width, active words, count, offsets, first indexes), on one period. -/
abbrev StraddleRow (row : Nat × Nat × Nat × List Nat × List Nat) : Prop :=
  64 * row.1 = row.2.1 ∧ 64 * (straddlers row.1).length = row.2.2.1 ∧
    (∀ off ∈ row.2.2.2.1, ∃ i ∈ straddlers row.1, (place row.1 i).off = off) ∧
    (∀ i ∈ straddlers row.1, (place row.1 i).off ∈ row.2.2.2.1) ∧ row.2.2.2.2 <+: straddlers row.1

end Sys2Proof.Machine
end

section
/-! The obligations of 40_codec.md. -/

namespace Sys2Proof.Machine

/-- Settles O10: `b * i` is at most `13 * 4095`; the rest follows from where a straddle begins (`place_straddle_iff`). -/
theorem addressingValuesInRange : Obligations.AddressingValuesInRange := by
  unfold Obligations.AddressingValuesInRange
  intro b i hb hb' hi
  have hstart : b * i ≤ 13 * 4095 := Nat.mul_le_mul hb' hi
  have hw1 := place_w1_lt (b := b) (i := i) (by omega) (by omega)
  have hstraddle := place_straddle_iff (b := b) (by omega) (by omega) i
  refine ⟨hstart, ?_, place_w0_le b i (by omega), by omega, by omega, Nat.mod_lt _ (by decide), fun hs => ?_,
    fun hs => ?_, fun hdiv => ?_⟩
  · simp only [place]
    omega
  · have hfits : b * i % 64 + b ≤ 64 := Nat.le_of_not_lt fun hlt => by simp [hstraddle.2 hlt] at hs
    refine ⟨hfits, ?_⟩
    calc (2 ^ b - 1) * 2 ^ (b * i % 64)
        < 2 ^ b * 2 ^ (b * i % 64) := Nat.mul_lt_mul_of_pos_right (Nat.sub_lt (by positivity) one_pos) (by positivity)
      _ = 2 ^ (b * i % 64 + b) := by rw [← Nat.pow_add, Nat.add_comm]
      _ ≤ 2 ^ 64 := Nat.pow_le_pow_right (by decide) hfits
  · have hcross := hstraddle.1 hs
    have hnext := place_w1_straddle (by omega) (by omega) hcross
    simp only [place]
    omega
  · refine Bool.eq_false_iff.2 fun hs => ?_
    have hcross := hstraddle.1 hs
    rcases hdiv with rfl | rfl <;> omega

/-- Settles O11: the pattern has period 64 (`place_add_64`), so each row is checked on the first 64 elements. -/
theorem straddlingElementsByWidth : Obligations.StraddlingElementsByWidth := by
  unfold Obligations.StraddlingElementsByWidth
  refine ⟨fun row hrow => ?_, fun b i _ _ => place_add_64 b i⟩
  obtain ⟨hwords, hcount, hoffs, hoffs', hfirst⟩ : StraddleRow row := by
    revert row
    decide
  refine ⟨hwords, (countP_straddle row.1).trans hcount, fun off => ?_, take_filter_straddle hfirst⟩
  rw [exists_straddle_off_iff]
  exact ⟨hoffs off, fun ⟨i, hi, ho⟩ => ho ▸ hoffs' i hi⟩

/-- Settles O12, from the flat bits of what GetRaw reads and SetRaw leaves (`getRaw_getLsbD`, `setRaw_flat`). -/
theorem codecIsTheFlatBitView : Obligations.CodecIsTheFlatBitView := by
  unfold Obligations.CodecIsTheFlatBitView
  intro b ws i hb4 hb13 _ hwf
  have hb : 1 ≤ b := by omega
  have hb' : b ≤ 64 := by omega
  refine ⟨getRaw_toNat_eq_sum hb hb' ws i, fun v hv => ⟨fun k hk => ?_, fun p hp => ?_⟩⟩
  · rw [setRaw_flat hb hb' hwf.canonical i hv, if_pos ⟨Nat.le_add_right _ _, Nat.add_lt_add_left hk _⟩,
      Nat.add_sub_cancel_left]
  · rw [setRaw_flat hb hb' hwf.canonical i hv, if_neg (by omega)]

/-- Settles O13: no check fails, and the data is GetRaw's, whose bits are those of the flat string. -/
theorem getRawReturnsTheStoredCode : Obligations.GetRawReturnsTheStoredCode := by
  unfold Obligations.GetRawReturnsTheStoredCode
  intro s idx hc hs hi
  obtain ⟨hb4, hb13⟩ := State.bpv_bounds hc
  exact ⟨_, exec_getRaw_of_legal hs hi hc, getRaw_getLsbD (by omega) (by omega) s.ws idx.toNat⟩

/-- Settles O14: no check fails, and SetRaw keeps the Word Store canonical and changes the element's own bits alone. -/
theorem setRawStoresTheElementOnly : Obligations.SetRawStoresTheElementOnly := by
  unfold Obligations.SetRawStoresTheElementOnly
  intro s idx v hinv hs hi hv
  obtain ⟨hb4, hb13⟩ := State.bpv_bounds hinv.config
  obtain ⟨hws, -, -⟩ := hinv.memory
  have hw1 : (place s.bpv idx.toNat).w1 < 832 := Nat.lt_of_lt_of_le (place_w1_lt (by omega) hi) (by omega)
  exact ⟨_, exec_setRaw_of_legal hs hi hinv.config hv, setRaw_wf (by omega) hws hw1 v,
    setRaw_flat (by omega) (by omega) hws.canonical idx.toNat hv⟩

/-- Settles O17; writing twice is the last write winning with the same value. -/
theorem codecLaws : Obligations.CodecLaws := by
  unfold Obligations.CodecLaws
  intro b ws i j u v hb4 hb13 _ _ hij hwf hu hv
  have hb : 1 ≤ b := by omega
  have hb' : b ≤ 64 := by omega
  have hc := hwf.canonical
  exact ⟨getRaw_setRaw_same hb hb' hc hv i, getRaw_setRaw_other hb hb' hc hv hij,
    fun a h0 h1 => setRaw_read_other hc v h0 h1, setRaw_setRaw_same hb hb' hc hv i hv,
    setRaw_setRaw_same hb hb' hc hv i hu, setRaw_comm hb hb' hc hv hij hu⟩

/-- Settles O19; that CFG_WRITE moves no bit of the Word Store is read off what it writes (`exec_writes`). -/
theorem codecIsIndependentOfThePalette : Obligations.CodecIsIndependentOfThePalette := by
  unfold Obligations.CodecIsIndependentOfThePalette
  refine ⟨fun s t idx v hb hw hst => ⟨execGetRaw_sameOutcome hb hw hst idx, execSetRaw_sameOutcome hb hw hst idx v⟩,
    fun s t d h => ?_⟩
  obtain ⟨u, c, x, hu, rfl⟩ := exec_writes (.cfgWrite d) s t h
  exact hu.ws_eq nofun nofun nofun

/-- Settles O15. -/
theorem setRawOfTooLargeValueIsFatal : Obligations.SetRawOfTooLargeValueIsFatal := by
  unfold Obligations.SetRawOfTooLargeValueIsFatal
  intro s idx v hs hi hv
  exact exec_setRaw_of_too_large hs hi hv

end Sys2Proof.Machine
end

section
/-! SUPPORT. What GET answers on an element in range, and PAL_READ and PAL_WRITE on an entry of the table, by the first
check that fails (41_palette.md R110-R113). -/

namespace Sys2Proof.Machine

/-- GetRaw returns the code whose bits are those of the element in the flat string (20_memory.md R52). -/
theorem getRaw_eq_of_flat {b : Nat} (hb : 1 ≤ b) (hb' : b ≤ 64) {ws : Store} {i : Nat} {raw : Word}
    (hraw : ∀ k, raw.getLsbD k = (decide (k < b) && ws.flat (b * i + k))) : getRaw b ws i = raw :=
  BitVec.eq_of_getLsbD_eq fun k _ => by rw [getRaw_getLsbD hb hb', hraw]

section ElementInRange

variable {s : State} {idx : Index} (hs : s.halted = false) (hi : idx.toNat < Config.nElem)
  (hc : cfgLegal (s.config.setWidth 64) = true)

include hs hi hc

/-- In direct mode GET answers as GET_RAW does. -/
theorem exec_get_of_direct (he : s.palEn = false) :
    exec (.get idx) s = .next (s.answered .ok (getRaw s.bpv s.ws idx.toNat)) := by
  simp only [exec, execGet, hs, Nat.not_le.2 hi, State.elementExists_of_legal hc hi, he, State.respond_eq,
    Bool.false_eq_true, Bool.true_eq_false, if_false, if_true]

theorem exec_get_of_unmapped (he : s.palEn = true) (hlen : s.palLen ≤ (getRaw s.bpv s.ws idx.toNat).toNat) :
    exec (.get idx) s = .next ((s.setStatus ⟨true, 3#4, idx⟩).answered .unmappedRawCode 0#64) := by
  simp only [exec, execGet, hs, Nat.not_le.2 hi, State.elementExists_of_legal hc hi, he, hlen, Bool.false_eq_true,
    Bool.true_eq_false, if_false, if_true]
  exact State.raiseFatal_running hs .unmappedRawCode idx

/-- A mapped code names an entry of the table, since a legal PAL_LEN is at most its depth. -/
theorem exec_get_of_mapped (he : s.palEn = true) (hlen : (getRaw s.bpv s.ws idx.toNat).toNat < s.palLen) :
    exec (.get idx) s = .next (s.answered .ok (s.pal.read (getRaw s.bpv s.ws idx.toNat).toNat)) := by
  have hdepth : (getRaw s.bpv s.ws idx.toNat).toNat < Config.palDepth := Nat.lt_of_lt_of_le hlen (State.palLen_le hc)
  simp only [exec, execGet, hs, Nat.not_le.2 hi, State.elementExists_of_legal hc hi, he, Nat.not_le.2 hlen,
    Nat.not_le.2 hdepth, State.respond_eq, Bool.false_eq_true, Bool.true_eq_false, if_false]

end ElementInRange

/-- The halted check and the range check, both passed. -/
theorem range_check_passed {P : Prop} [Decidable P] {s : State} {code : StatusCode}
    {o : Host.Outcome State Fault Refusal} (hs : s.halted = false) (h : ¬ P) :
    (if s.halted then s.raise .halted else if P then s.raise code else o) = o := by
  rw [if_neg (Bool.eq_false_iff.1 hs), if_neg h]

section EntryInTable

variable {s : State} {p : Index} (hs : s.halted = false) (hp : p.toNat < Config.palDepth)

include hs hp

theorem exec_palRead_of_lt : exec (.palRead p) s = .next (s.answered .ok (s.pal.read p.toNat)) :=
  range_check_passed hs (Nat.not_le.2 hp)

theorem exec_palWrite_of_lt (d : Word) :
    exec (.palWrite p d) s = .next ((s.setPal (s.pal.write p.toNat d)).answered .ok 0#64) :=
  range_check_passed hs (Nat.not_le.2 hp)

end EntryInTable

end Sys2Proof.Machine
end

section
/-! The obligations of 41_palette.md. -/

namespace Sys2Proof.Machine

/-- Settles O21: GetRaw returns `raw`, and the branches of the statement are the three ways in which GET answers on an
element in range. -/
theorem getFollowsTheLookup : Obligations.GetFollowsTheLookup := by
  unfold Obligations.GetFollowsTheLookup
  intro s idx raw hc hs hi hraw
  obtain ⟨hb4, hb13⟩ := State.bpv_bounds hc
  obtain rfl := getRaw_eq_of_flat (by omega) (by omega) hraw
  split <;> rename_i he
  · split <;> rename_i hlen
    · exact exec_get_of_unmapped hs hi hc he hlen
    · exact exec_get_of_mapped hs hi hc he (Nat.lt_of_not_le hlen)
  · exact exec_get_of_direct hs hi hc (Bool.eq_false_iff.2 he)

/-- Settles O22: neither command tests the mode, and on a canonical table a read after the write is `Store.read_write`. -/
theorem paletteEntriesReadBack : Obligations.PaletteEntriesReadBack := by
  unfold Obligations.PaletteEntriesReadBack
  rintro s p q d ⟨-, hpal, -⟩ hs hp hq
  have hread (a : Nat) : (s.pal.write p.toNat d).read a = if a = p.toNat then d else s.pal.read a :=
    (Store.read_write hpal.canonical p.toNat a d).trans (if_congr eq_comm rfl rfl)
  have hentry : (s.pal.write p.toNat d).read q.toNat = if q = p then d else s.pal.read q.toNat :=
    (hread q.toNat).trans (if_congr BitVec.toNat_inj rfl rfl)
  refine ⟨exec_palRead_of_lt hs hq, _, exec_palWrite_of_lt hs hp d, hread, ?_⟩
  rw [← hentry]
  exact exec_palRead_of_lt (s := (s.setPal (s.pal.write p.toNat d)).answered .ok 0#64) hs hq

end Sys2Proof.Machine
end

section
/-! SUPPORT. LightGet as a field of one word, and the three light commands on an index in range (42_light.md R130-R133). -/

namespace Sys2Proof.Machine

/-- LightGet reads one field of four bits, wherever the byte order puts its byte (20_memory.md R53, R54). -/
theorem lightNibble_eq_field {order : ByteOrder} {i pos : Nat} (hpos : byteBase order (i / 2 % 8) + 4 * (i % 2) = pos)
    (ls : Store) : lightNibble order ls i = ((ls.read (i / 16)).extractLsb' pos 4).setWidth 64 := by
  refine BitVec.eq_of_getLsbD_eq fun k hk => ?_
  rw [lightNibble_getLsbD, hpos, Nat.div_div_eq_div_mul, BitVec.getLsbD_setWidth, BitVec.getLsbD_extractLsb',
    decide_eq_true hk, Bool.true_and]

/-- With LITTLE the light store, read as one bit string, has nibble `i` at bit `4 * i`. -/
theorem lightNibble_little_flat (ls : Store) (i k : Nat) :
    (lightNibble .little ls i).getLsbD k = (decide (k < 4) && ls.flat (4 * i + k)) := by
  rw [lightNibble_getLsbD]
  by_cases hk : k < 4
  · have hword : (4 * i + k) / 64 = i / 2 / 8 := by omega
    have hbit : (4 * i + k) % 64 = byteBase .little (i / 2 % 8) + 4 * (i % 2) + k := by
      rw [byteBase]
      omega
    rw [Store.flat, hword, hbit]
  · rw [decide_eq_false hk, Bool.false_and, Bool.false_and]

/-- `range_check_passed` of a light command on a block with the light store. -/
theorem light_range_check_passed {P : Prop} [Decidable P] {s : State} {code : StatusCode}
    {o : Host.Outcome State Fault Refusal} (hl : s.params.hasLight = true) (hs : s.halted = false) (h : ¬ P) :
    (if s.params.hasLight = false then s.raise .illegalCommand
      else if s.halted then s.raise .halted else if P then s.raise code else o) = o := by
  rw [if_neg (by simp [hl]), range_check_passed hs h]

section LightIndexInRange

variable {s : State} {idx : Index} (hl : s.params.hasLight = true) (hs : s.halted = false)

include hl hs

theorem exec_lightGet_of_lt (hi : idx.toNat < Config.nElem) :
    exec (.lightGet idx) s = .next (s.answered .ok (lightNibble s.params.lightByteOrder s.ls idx.toNat)) :=
  light_range_check_passed hl hs (Nat.not_le.2 hi)

theorem exec_lwordRead_of_lt (hi : idx.toNat < Config.lsDepth) :
    exec (.lwordRead idx) s = .next (s.answered .ok (s.ls.read idx.toNat)) :=
  light_range_check_passed hl hs (Nat.not_le.2 hi)

theorem exec_lwordWrite_of_lt (hi : idx.toNat < Config.lsDepth) (d : Word) :
    exec (.lwordWrite idx d) s = .next ((s.setLs (s.ls.write idx.toNat d)).answered .ok 0#64) :=
  light_range_check_passed hl hs (Nat.not_le.2 hi)

end LightIndexInRange

/-- `Store.read_write`, at the two addresses that commands name. -/
theorem Store.read_write_index {st : Store} (h : st.canonical) (p q : Index) (d : Word) :
    (st.write p.toNat d).read q.toNat = if q = p then d else st.read q.toNat :=
  (Store.read_write h p.toNat q.toNat d).trans (if_congr (BitVec.toNat_inj.trans eq_comm) rfl rfl)

end Sys2Proof.Machine
end

section
/-! The obligations of 42_light.md. -/

namespace Sys2Proof.Machine

/-- Settles O24: in each byte order the closed form names where the nibble's field begins, and with LITTLE the flat bits of
the nibble are those of element `i` at width 4. -/
theorem lightNibbleClosedForms : Obligations.LightNibbleClosedForms := by
  unfold Obligations.LightNibbleClosedForms
  intro ls i _
  have hlittle : byteBase .little (i / 2 % 8) + 4 * (i % 2) = 4 * (i % 16) := by
    rw [byteBase]
    omega
  have hbig : byteBase .big (i / 2 % 8) + 4 * (i % 2) =
      if i % 16 % 2 = 0 then 56 - 8 * (i % 16 / 2) else 60 - 8 * (i % 16 / 2) := by
    rw [byteBase]
    split <;> omega
  have helement : getRaw 4 ls i = lightNibble .little ls i :=
    getRaw_eq_of_flat (by decide) (by decide) (lightNibble_little_flat ls i)
  exact ⟨lightNibble_eq_field hlittle ls, helement.symm, lightNibble_eq_field hbig ls⟩

/-- Settles O25: no check fails, and `lightNibble_getLsbD` gives the data bit by bit. -/
theorem lightGetReturnsTheNibble : Obligations.LightGetReturnsTheNibble := by
  unfold Obligations.LightGetReturnsTheNibble
  intro s idx hl hs hi
  exact ⟨_, exec_lightGet_of_lt hl hs hi, lightNibble_getLsbD s.params.lightByteOrder s.ls idx.toNat⟩

/-- Settles O26: neither command reads the byte order, and on a canonical light store a read after the write is
`Store.read_write`. -/
theorem lightWordsReadBack : Obligations.LightWordsReadBack := by
  unfold Obligations.LightWordsReadBack
  rintro s p q d ⟨-, -, hls⟩ hl hs hp hq
  refine ⟨exec_lwordRead_of_lt hl hs hq, _, exec_lwordWrite_of_lt hl hs hp d, fun a => ?_, ?_⟩
  · exact (Store.read_write hls.canonical p.toNat a d).trans (if_congr eq_comm rfl rfl)
  · rw [← Store.read_write_index hls.canonical]
    exact exec_lwordRead_of_lt (s := (s.setLs (s.ls.write p.toNat d)).answered .ok 0#64) hl hs hq

end Sys2Proof.Machine
end

section
/-! SUPPORT. CONFIG images and STATUS bit by bit (43_config_host.md R153, R156), and what the commands of
43_config_host.md answer by the first check that fails. -/

namespace Sys2Proof.Machine

theorem cfgBpv_eq_mod (d : Word) : cfgBpv d = d.toNat % 16 := by
  simp [cfgBpv]

theorem cfgPalLen_eq_mod (d : Word) : cfgPalLen d = d.toNat / 65536 % 512 := by
  simp [cfgPalLen, Nat.shiftRight_eq_div_pow]

/-- The reserved bits of a CONFIG image: those of no field (10_state.md R23). -/
abbrev cfgReserved (k : Nat) : Prop := 25 ≤ k ∨ (9 ≤ k ∧ k ≤ 15) ∨ (4 ≤ k ∧ k ≤ 7)

theorem cfgFieldMask_getLsbD {k : Nat} (hk : k < 64) : cfgFieldMask.getLsbD k = !decide (cfgReserved k) := by
  have hall : ∀ j : Fin 64, cfgFieldMask.getLsbD j = !decide (cfgReserved j) := by decide
  exact hall ⟨k, hk⟩

theorem and_not_cfgFieldMask_eq_zero {d : Word} :
    d &&& ~~~cfgFieldMask = 0 ↔ ∀ k < 64, cfgReserved k → d.getLsbD k = false := by
  have hbit {k : Nat} (hk : k < 64) : (d &&& ~~~cfgFieldMask).getLsbD k = (d.getLsbD k && decide (cfgReserved k)) := by
    rw [BitVec.getLsbD_and, BitVec.getLsbD_not, cfgFieldMask_getLsbD hk, decide_eq_true hk, Bool.true_and, Bool.not_not]
  refine ⟨fun h k hk hr => ?_, fun h => BitVec.eq_of_getLsbD_eq fun k hk => ?_⟩
  · rw [← Bool.and_true (d.getLsbD k), ← decide_eq_true hr, ← hbit hk, h]
    exact BitVec.getLsbD_zero
  · rw [hbit hk, BitVec.ofNat_eq_ofNat, BitVec.getLsbD_zero]
    by_cases hr : cfgReserved k
    · rw [h k hk hr, Bool.false_and]
    · rw [decide_eq_false hr, Bool.and_false]

/-- `CfgLegal` by the fields of the image. -/
theorem cfgLegal_iff {d : Word} :
    cfgLegal d = true ↔ (∀ k < 64, cfgReserved k → d.getLsbD k = false) ∧ 4 ≤ cfgBpv d ∧ cfgBpv d ≤ 13 ∧
      (cfgPalEn d = false → cfgBpv d = 13 ∧ cfgPalLen d = 0) ∧
      (cfgPalEn d = true → 1 ≤ cfgPalLen d ∧ cfgPalLen d ≤ min (2 ^ cfgBpv d) 256) := by
  rw [← and_not_cfgFieldMask_eq_zero, cfgLegal]
  by_cases hm : d &&& ~~~cfgFieldMask = 0
  · rw [if_neg (not_not.2 hm)]
    by_cases hb : cfgBpv d < Config.bpvMin ∨ Config.bpvMax < cfgBpv d
    · rw [if_pos hb]
      exact iff_of_false Bool.false_ne_true fun ⟨_, h4, h13, _⟩ => hb.elim (Nat.not_lt.2 h4) (Nat.not_lt.2 h13)
    · rw [if_neg hb]
      obtain ⟨h4, h13⟩ := not_or.1 hb
      cases he : cfgPalEn d <;> simp [hm, Nat.le_of_not_lt h4, Nat.le_of_not_lt h13]
  · rw [if_pos hm]
    exact iff_of_false Bool.false_ne_true fun h => hm h.1

/-- The field in bits `m` to `n` of a register, as the register is read. -/
theorem field_getLsbD {w n m : Nat} (hw : n + w = m + 1) (hm : m < 64) (x : BitVec w) (k : Nat) :
    (x.setWidth 64 <<< n).getLsbD k = (decide (n ≤ k ∧ k ≤ m) && x.getLsbD (k - n)) := by
  rw [BitVec.getLsbD_shiftLeft, BitVec.getLsbD_setWidth]
  by_cases hn : k < n
  · simp [hn, Nat.not_le.2 hn]
  · by_cases hk : k ≤ m
    · have h64 : k < 64 := by omega
      have hsub : k - n < 64 := by omega
      simp [hn, hk, Nat.le_of_not_lt hn, h64, hsub]
    · rw [BitVec.getLsbD_of_ge x (k - n) (by omega), Bool.and_false, Bool.and_false, Bool.and_false]

/-- A field of one bit. -/
theorem bitField_getLsbD {n : Nat} (h : n < 64) (x : Bool) (k : Nat) :
    ((BitVec.ofBool x).setWidth 64 <<< n).getLsbD k = (decide (k = n) && x) := by
  rw [field_getLsbD rfl h]
  by_cases hk : k = n
  · simp [hk]
  · have hno : ¬ (n ≤ k ∧ k ≤ n) := by omega
    rw [decide_eq_false hk, decide_eq_false hno, Bool.false_and, Bool.false_and]

/-- STATUS by its bits (10_state.md R25). -/
theorem statusWord_getLsbD (p : Params) (st : Status) (k : Nat) :
    (statusWord p st).getLsbD k =
      (decide (k = 0) && st.fatal || (decide (4 ≤ k ∧ k ≤ 7) && st.fatalCode.getLsbD (k - 4)) ||
        (decide (16 ≤ k ∧ k ≤ 31) && st.fatalIdx.getLsbD (k - 16)) || (decide (k = 32) && p.hasLight) ||
        (decide (k = 33) && lightBe p)) := by
  have hfatal := bitField_getLsbD (n := 0) (by decide) st.fatal k
  rw [BitVec.shiftLeft_zero] at hfatal
  simp only [statusWord, BitVec.getLsbD_or, hfatal]
  rw [field_getLsbD (n := 4) (m := 7) rfl (by decide), field_getLsbD (n := 16) (m := 31) rfl (by decide),
    bitField_getLsbD (by decide), bitField_getLsbD (by decide)]

section Running

variable {s : State} (hs : s.halted = false)

include hs

theorem exec_wordRead_of_lt {a : Index} (ha : a.toNat < Config.wsDepth) :
    exec (.wordRead a) s = .next (s.answered .ok (s.ws.read a.toNat)) :=
  range_check_passed hs (Nat.not_le.2 ha)

theorem exec_wordWrite_of_lt {a : Index} (ha : a.toNat < Config.wsDepth) (d : Word) :
    exec (.wordWrite a d) s = .next ((s.setWs (s.ws.write a.toNat d)).answered .ok 0#64) :=
  range_check_passed hs (Nat.not_le.2 ha)

theorem exec_cfgRead_of_running : exec .cfgRead s = .next (s.answered .ok (s.config.setWidth 64)) :=
  if_neg (Bool.eq_false_iff.1 hs)

theorem exec_cfgWrite_of_legal {d : Word} (hd : cfgLegal d = true) :
    exec (.cfgWrite d) s = .next ((s.setConfig (d.setWidth 32)).answered .ok 0#64) :=
  range_check_passed hs (Bool.not_eq_false _ ▸ hd)

theorem exec_cfgWrite_of_illegal {d : Word} (hd : cfgLegal d = false) :
    exec (.cfgWrite d) s = .next (s.answered .invalidConfig 0#64) :=
  raise_of_range_check hs hd

theorem exec_initEmpty_of_running :
    exec .initEmpty s =
      .next ((((s.setConfig configEmpty).setWs Store.zeroed).setPal Store.zeroed).answered .ok 0#64) :=
  if_neg (Bool.eq_false_iff.1 hs)

end Running

theorem getRaw_zeroed {b : Nat} (hb : 1 ≤ b) (hb' : b ≤ 64) (i : Nat) : getRaw b Store.zeroed i = 0#64 :=
  getRaw_eq_of_flat hb hb' fun k => by simp [Store.flat]

end Sys2Proof.Machine
end

section
/-! The obligations of 43_config_host.md about one command. -/

namespace Sys2Proof.Machine

/-- Settles O28: neither command reads CONFIG, and on a canonical Word Store a read after the write is
`Store.read_write`. -/
theorem wordStoreWordsReadBack : Obligations.WordStoreWordsReadBack := by
  unfold Obligations.WordStoreWordsReadBack
  rintro s p q d ⟨hws, -, -⟩ hs hp hq
  refine ⟨exec_wordRead_of_lt hs hq, _, exec_wordWrite_of_lt hs hp d, fun a => ?_, ?_⟩
  · exact (Store.read_write hws.canonical p.toNat a d).trans (if_congr eq_comm rfl rfl)
  · rw [← Store.read_write_index hws.canonical]
    exact exec_wordRead_of_lt (s := (s.setWs (s.ws.write p.toNat d)).answered .ok 0#64) hs hq

/-- Settles O29: `cfgLegal_iff`, with the fields as numbers. -/
theorem configImageLegality : Obligations.ConfigImageLegality := by
  unfold Obligations.ConfigImageLegality
  intro d
  rw [← cfgBpv_eq_mod, ← cfgPalLen_eq_mod]
  exact cfgLegal_iff

/-- Settles O30: a legal image fits CONFIG, so the register holds all of it (`setWidth_setWidth_of_cfgLegal`). -/
theorem configWritesReadBack : Obligations.ConfigWritesReadBack := by
  unfold Obligations.ConfigWritesReadBack
  intro s d hs hd
  refine ⟨exec_cfgWrite_of_legal hs hd, ?_⟩
  have hread := exec_cfgRead_of_running (s := (s.setConfig (d.setWidth 32)).answered .ok 0#64) hs
  rw [State.answered_config, State.setConfig_config, setWidth_setWidth_of_cfgLegal hd] at hread
  exact hread

/-- Settles O31. -/
theorem illegalConfigIsRefused : Obligations.IllegalConfigIsRefused := by
  unfold Obligations.IllegalConfigIsRefused
  intro s d hs hd
  exact exec_cfgWrite_of_illegal hs hd

/-- Settles O32. -/
theorem configReadReturnsConfig : Obligations.ConfigReadReturnsConfig := by
  unfold Obligations.ConfigReadReturnsConfig
  intro s hs
  exact ⟨_, exec_cfgRead_of_running hs, BitVec.toNat_setWidth_of_le (by decide)⟩

/-- Settles O33: in the empty array every raw code is 0, the one mapped code, and entry 0 is 0. -/
theorem initEmptyMakesTheEmptyArray : Obligations.InitEmptyMakesTheEmptyArray := by
  unfold Obligations.InitEmptyMakesTheEmptyArray
  intro s hs
  refine ⟨_, exec_initEmpty_of_running hs, rfl, rfl, Store.read_zeroed, Store.read_zeroed, rfl, rfl, rfl, rfl, rfl, rfl,
    fun idx hi => ?_⟩
  have hcode : getRaw (cfgBpv configEmpty) Store.zeroed idx.toNat = 0#64 := getRaw_zeroed (by decide) (by decide) _
  exact exec_get_of_mapped
    (s := (((s.setConfig configEmpty).setWs Store.zeroed).setPal Store.zeroed).answered .ok 0#64) hs hi
    cfgLegal_configEmpty (rfl : cfgPalEn configEmpty = true)
    (lt_of_eq_of_lt (congrArg BitVec.toNat hcode) (by decide : (0#64).toNat < cfgPalLen configEmpty))

/-- Settles O34, from the bits of the word STATUS_READ returns (`statusWord_getLsbD`). -/
theorem statusReadReturnsStatus : Obligations.StatusReadReturnsStatus := by
  unfold Obligations.StatusReadReturnsStatus
  intro s
  exact ⟨_, rfl, statusWord_getLsbD s.params s.status⟩

end Sys2Proof.Machine
end

section
/-! SUPPORT. The readers (43_config_host.md R158): what a list of commands that read one block answers. -/

namespace Sys2Proof.Machine

/-- In a halted block every command but STATUS_READ answers HALTED (60_exceptions.md R184). -/
theorem exec_of_halted {i : Instr} {s : State} (hs : s.halted = true) (hi : i ≠ .statusRead)
    (hl : i.needsLight = false) : exec i s = .next (s.answered .halted 0#64) := by
  cases i with
  | statusRead => exact absurd rfl hi
  | lightGet _ | lwordRead _ | lwordWrite _ _ => cases hl
  | _ => exact if_pos hs

/-- On every machine around the block `b` the command answers `(OK, v)` and changes nothing else. -/
def Block.Answers (b : Block) (i : Instr) (v : Word) : Prop :=
  ∀ u : State, u.toBlock = b → exec i u = .next (u.answered .ok v)

theorem askAll_of_answers {b : Block} {f : Nat → Instr} {v : Nat → Word} {as : List Nat}
    (h : ∀ a ∈ as, b.Answers (f a) (v a)) {u : State} (hu : u.toBlock = b) :
    ∃ u', askAll (as.map f) u = some (as.map v, u') := by
  induction as generalizing u with
  | nil => exact ⟨u, rfl⟩
  | cons a as ih =>
    obtain ⟨ha, has⟩ := List.forall_mem_cons.1 h
    obtain ⟨u', hrest⟩ := ih has (u := u.answered .ok (v a)) hu
    refine ⟨u', ?_⟩
    rw [List.map_cons, askAll, ha u hu]
    simp only [hrest, State.answered_port, Port.okData, Port.response, Option.bind_some, Option.map_some, List.map_cons]

theorem askConfig_of_running {s : State} (hs : s.halted = false) :
    askConfig s = some (s.config.setWidth 64, s.answered .ok (s.config.setWidth 64)) := by
  rw [askConfig, askAll, exec_cfgRead_of_running hs]
  rfl

theorem askConfig_of_halted {s : State} (hs : s.halted = true) : askConfig s = none := by
  rw [askConfig, askAll, exec_of_halted (i := .cfgRead) hs nofun rfl]
  rfl

/-- The fields of the image that CFG_READ returns. -/
theorem State.fields_of_image (s : State) :
    cfgBpv (s.config.setWidth 64) = s.bpv ∧ cfgPalEn (s.config.setWidth 64) = s.palEn ∧
      cfgPalLen (s.config.setWidth 64) = s.palLen :=
  ⟨cfgBpv_setWidth _ (by decide), cfgPalEn_setWidth _ (by decide), cfgPalLen_setWidth _ (by decide)⟩

section Running

variable {s : State} (hs : s.halted = false)

include hs

theorem State.halted_of_toBlock_eq {u : State} (hu : u.toBlock = s.toBlock) : u.halted = false :=
  (congrArg (·.status.fatal) hu).trans hs

theorem answers_wordRead {a : Nat} (ha : a < Config.wsDepth) :
    s.toBlock.Answers (.wordRead (BitVec.ofNat 16 a)) (s.ws.read a) := by
  intro u hu
  have hidx : (BitVec.ofNat 16 a).toNat = a := Nat.mod_eq_of_lt (Nat.lt_trans ha (by decide))
  rw [exec_wordRead_of_lt (State.halted_of_toBlock_eq hs hu) (hidx.symm ▸ ha), hidx, hu]

theorem answers_palRead {p : Nat} (hp : p < Config.palDepth) :
    s.toBlock.Answers (.palRead (BitVec.ofNat 16 p)) (s.pal.read p) := by
  intro u hu
  have hidx : (BitVec.ofNat 16 p).toNat = p := Nat.mod_eq_of_lt (Nat.lt_trans hp (by decide))
  rw [exec_palRead_of_lt (State.halted_of_toBlock_eq hs hu) (hidx.symm ▸ hp), hidx, hu]

theorem State.bitsPerValue_of_running : s.bitsPerValue = some s.bpv := by
  obtain ⟨hbpv, -, -⟩ := s.fields_of_image
  rw [State.bitsPerValue, askConfig_of_running hs, Option.map_some, hbpv]

theorem State.palette_of_running (hlen : s.palLen ≤ 256) :
    s.palette = some (if s.palEn = true then some ((List.range s.palLen).map s.pal.read) else none) := by
  obtain ⟨u, hu⟩ := askAll_of_answers (as := List.range s.palLen) (u := s.answered .ok (s.config.setWidth 64))
    (fun p hp => answers_palRead hs (Nat.lt_of_lt_of_le (List.mem_range.1 hp) hlen)) rfl
  rw [State.palette, askConfig_of_running hs, Option.bind_some]
  obtain ⟨-, hen, hpalLen⟩ := s.fields_of_image
  simp only [hen, hpalLen, hu, Option.map_some]
  split <;> rfl

theorem State.words_of_running (hb : s.bpv ≤ 13) : s.words = some ((List.range (64 * s.bpv)).map s.ws.read) := by
  obtain ⟨u, hu⟩ := askAll_of_answers (as := List.range (64 * s.bpv)) (u := s.answered .ok (s.config.setWidth 64))
    (fun w hw => answers_wordRead hs (Nat.lt_of_lt_of_le (List.mem_range.1 hw) (Nat.mul_le_mul_left 64 hb))) rfl
  obtain ⟨hbpv, -, -⟩ := s.fields_of_image
  rw [State.words, askConfig_of_running hs, Option.bind_some]
  simp only [hbpv, hu, Option.map_some]

end Running

end Sys2Proof.Machine
end

section
/-! SUPPORT. The CONFIG image of `from_parts` (43_config_host.md R157) by its fields. -/

namespace Sys2Proof.Machine

section Image

variable {b n : Nat} (e : Bool) (hb : b < 256) (hn : n < 512)

include hb hn

theorem cfgImage_toNat : (BitVec.ofNat 64 (cfgImage b e.toNat n)).toNat = 2 ^ 8 * (2 ^ 8 * n + e.toNat) + b := by
  have he := e.toNat_le
  have hlt : b + e.toNat * 2 ^ 8 + n * 2 ^ 16 < 2 ^ 64 := by omega
  rw [BitVec.toNat_ofNat, cfgImage, Nat.shiftLeft_eq, Nat.shiftLeft_eq, Nat.mod_eq_of_lt hlt]
  omega

theorem cfgImage_getLsbD (k : Nat) :
    (BitVec.ofNat 64 (cfgImage b e.toNat n)).getLsbD k =
      if k < 8 then b.testBit k else if k < 16 then e.toNat.testBit (k - 8) else n.testBit (k - 16) := by
  have he : e.toNat < 2 ^ 8 := Nat.lt_of_le_of_lt e.toNat_le (by decide)
  rw [BitVec.getLsbD, cfgImage_toNat e hb hn, Nat.testBit_two_pow_mul_add _ hb, Nat.testBit_two_pow_mul_add _ he]
  by_cases h8 : k < 8
  · simp [h8]
  · have h16 : k - 8 < 8 ↔ k < 16 := by omega
    simp only [h8, h16, if_false, Nat.sub_sub, Nat.reduceAdd]

theorem cfgBpv_cfgImage : cfgBpv (BitVec.ofNat 64 (cfgImage b e.toNat n)) = b % 16 := by
  rw [cfgBpv_eq_mod, cfgImage_toNat e hb hn]
  omega

theorem cfgPalLen_cfgImage : cfgPalLen (BitVec.ofNat 64 (cfgImage b e.toNat n)) = n := by
  have he := e.toNat_le
  rw [cfgPalLen_eq_mod, cfgImage_toNat e hb hn]
  omega

theorem cfgPalEn_cfgImage : cfgPalEn (BitVec.ofNat 64 (cfgImage b e.toNat n)) = e := by
  rw [cfgPalEn, cfgImage_getLsbD e hb hn]
  cases e <;> rfl

/-- The reserved bits are 0 exactly when the width fits its field. -/
theorem cfgImage_reserved :
    (∀ k < 64, cfgReserved k → (BitVec.ofNat 64 (cfgImage b e.toNat n)).getLsbD k = false) ↔ b < 16 := by
  simp only [cfgImage_getLsbD e hb hn]
  constructor
  · intro h
    refine Nat.lt_pow_two_of_testBit b (n := 4) fun k hk => ?_
    by_cases hk8 : k < 8
    · simpa [hk8] using h k (by omega) (.inr (.inr ⟨hk, Nat.le_of_lt_succ hk8⟩))
    · exact Nat.testBit_lt_two_pow
        (Nat.lt_of_lt_of_le hb (Nat.pow_le_pow_right (n := 2) (i := 8) (by decide) (Nat.le_of_not_lt hk8)))
  · intro h k _ hr
    split
    · exact Nat.testBit_lt_two_pow (Nat.lt_of_lt_of_le h (Nat.pow_le_pow_right (n := 2) (i := 4) (by decide) (by omega)))
    · split
      · have he : e.toNat < 2 ^ 1 := Nat.lt_succ_of_le e.toNat_le
        exact Nat.testBit_lt_two_pow (Nat.lt_of_lt_of_le he (Nat.pow_le_pow_right (by decide) (by omega)))
      · exact Nat.testBit_lt_two_pow
          (Nat.lt_of_lt_of_le hn (Nat.pow_le_pow_right (n := 2) (i := 9) (by decide) (by omega)))

theorem cfgLegal_cfgImage_iff :
    cfgLegal (BitVec.ofNat 64 (cfgImage b e.toNat n)) = true ↔ 4 ≤ b ∧ b ≤ 13 ∧ (e = false → b = 13 ∧ n = 0) ∧
      (e = true → 1 ≤ n ∧ n ≤ min (2 ^ b) 256) := by
  rw [cfgLegal_iff, cfgImage_reserved e hb hn, cfgBpv_cfgImage e hb hn, cfgPalLen_cfgImage e hb hn,
    cfgPalEn_cfgImage e hb hn]
  constructor
  · rintro ⟨hlt, h⟩
    rwa [Nat.mod_eq_of_lt hlt] at h
  · intro h
    have hlt : b < 16 := by omega
    rw [Nat.mod_eq_of_lt hlt]
    exact ⟨hlt, h⟩

end Image

theorem partsImage_eq (b : BitVec 8) (palette : Option (List Word)) :
    partsImage b palette =
      BitVec.ofNat 64 (cfgImage b.toNat palette.isSome.toNat (min (palette.getD []).length 511)) := by
  cases palette <;> rfl

/-- The parts a block can represent (43_config_host.md R157) are those with a legal image. -/
theorem cfgLegal_partsImage_iff {b : BitVec 8} {palette : Option (List Word)} :
    cfgLegal (partsImage b palette) = true ↔ 4 ≤ b.toNat ∧ b.toNat ≤ 13 ∧ (palette = none → b.toNat = 13) ∧
      ∀ pal, palette = some pal → 1 ≤ pal.length ∧ pal.length ≤ min (2 ^ b.toNat) 256 := by
  rw [partsImage_eq, cfgLegal_cfgImage_iff _ b.isLt (by omega)]
  cases palette with
  | none => simp
  | some pal =>
    simp only [Option.isSome_some, Option.getD_some, Option.some.injEq, reduceCtorEq, false_implies, true_implies,
      true_and, forall_eq']
    omega

end Sys2Proof.Machine
end

section
/-! The obligations of 43_config_host.md about refused parts and about the readers. -/

namespace Sys2Proof.Machine

/-- Settles O36: the parts it names are those whose image is not legal (`cfgLegal_partsImage_iff`). -/
theorem fromPartsRefusesBadParts : Obligations.FromPartsRefusesBadParts := by
  unfold Obligations.FromPartsRefusesBadParts
  intro s b palette hs hbad
  refine exec_cfgWrite_of_illegal hs (Bool.eq_false_iff.2 fun hlegal => ?_)
  obtain ⟨h4, h13, hnone, hsome⟩ := cfgLegal_partsImage_iff.1 hlegal
  cases palette with
  | none =>
    have := hnone rfl
    omega
  | some pal =>
    have := hsome pal rfl
    simp only at hbad
    omega

/-- Settles O59: from a state that meets the invariant every address a reader asks for exists. -/
theorem readersAnswerFromTheCommands : Obligations.ReadersAnswerFromTheCommands := by
  unfold Obligations.ReadersAnswerFromTheCommands
  intro s hinv
  refine ⟨fun hs => ?_, fun hs => ?_⟩
  · rw [State.bitsPerValue, State.palette, State.words, askConfig_of_halted hs]
    exact ⟨rfl, rfl, rfl⟩
  · obtain ⟨-, hb⟩ := State.bpv_bounds hinv.config
    exact ⟨State.bitsPerValue_of_running hs, State.palette_of_running hs (State.palLen_le hinv.config),
      State.words_of_running hs hb⟩

end Sys2Proof.Machine
end

section
/-! SUPPORT. The loading commands CFG_WRITE, WORD_WRITE and PAL_WRITE (43_config_host.md R157): each part of the block takes
what is its own of a list of them, whatever stands between. -/

namespace Sys2Proof.Machine

/-- Writing the listed words, the first first. -/
def Store.writeAll (st : Store) (cells : List (Nat × Word)) : Store := cells.foldl (fun st c => st.write c.1 c.2) st

section WriteAll

variable {st : Store} {cells cells' : List (Nat × Word)} (h : st.canonical)

include h

theorem Store.writeAll_canonical : (st.writeAll cells).canonical := by
  induction cells generalizing st with
  | nil => exact h
  | cons c cells ih => exact ih (Store.write_canonical h c.1 c.2)

theorem Store.read_writeAll_of_not_mem {a : Nat} (ha : a ∉ cells.map Prod.fst) :
    (st.writeAll cells).read a = st.read a := by
  induction cells generalizing st with
  | nil => rfl
  | cons c cells ih =>
    obtain ⟨hac, hcells⟩ := not_or.1 (List.mem_cons.not.1 ha)
    exact (ih (Store.write_canonical h c.1 c.2) hcells).trans (Store.read_write_other h (Ne.symm hac) c.2)

theorem Store.read_writeAll_of_mem (hnodup : (cells.map Prod.fst).Nodup) {a : Nat} {d : Word} (hmem : (a, d) ∈ cells) :
    (st.writeAll cells).read a = d := by
  induction cells generalizing st with
  | nil => cases hmem
  | cons c cells ih =>
    obtain ⟨hc, hcells⟩ := List.nodup_cons.1 hnodup
    have hw := Store.write_canonical h c.1 c.2
    rcases List.mem_cons.1 hmem with rfl | hmem
    · exact (Store.read_writeAll_of_not_mem hw hc).trans (Store.read_write_same h a d)
    · exact ih hw hcells hmem

/-- Words at different addresses may be written in any order. -/
theorem Store.writeAll_perm (hnodup : (cells.map Prod.fst).Nodup) (hperm : cells'.Perm cells) :
    st.writeAll cells' = st.writeAll cells := by
  refine Store.ext (Store.writeAll_canonical h) (Store.writeAll_canonical h) fun a => ?_
  have hkeys := hperm.map Prod.fst
  by_cases ha : a ∈ cells.map Prod.fst
  · obtain ⟨⟨_, d⟩, hmem, rfl⟩ := List.mem_map.1 ha
    rw [Store.read_writeAll_of_mem h hnodup hmem,
      Store.read_writeAll_of_mem h (hkeys.nodup_iff.2 hnodup) (hperm.mem_iff.2 hmem)]
  · rw [Store.read_writeAll_of_not_mem h ha, Store.read_writeAll_of_not_mem h (hkeys.mem_iff.not.2 ha)]

end WriteAll

/-- The loading commands. -/
inductive Loading : Instr → Prop where
  | config (d : Word) : Loading (.cfgWrite d)
  | word (a : Index) (d : Word) : Loading (.wordWrite a d)
  | entry (p : Index) (d : Word) : Loading (.palWrite p d)

/-- The loading commands that a block which is not halted carries out. -/
inductive Accepted : Instr → Prop where
  | config {d : Word} (h : cfgLegal d = true) : Accepted (.cfgWrite d)
  | word {a : Index} (h : a.toNat < Config.wsDepth) (d : Word) : Accepted (.wordWrite a d)
  | entry {p : Index} (h : p.toNat < Config.palDepth) (d : Word) : Accepted (.palWrite p d)

/-- What a command brings for CONFIG. -/
def configLoad : Instr → Option (BitVec 32)
  | .cfgWrite d => if cfgLegal d then some (d.setWidth 32) else none
  | _ => none

/-- The cell that a write to a memory of `depth` words brings. -/
def cellBelow (depth : Nat) (a : Index) (d : Word) : Option (Nat × Word) :=
  if a.toNat < depth then some (a.toNat, d) else none

/-- What a command brings for the Word Store. -/
def wordLoad : Instr → Option (Nat × Word)
  | .wordWrite a d => cellBelow Config.wsDepth a d
  | _ => none

/-- What a command brings for the palette table. -/
def palLoad : Instr → Option (Nat × Word)
  | .palWrite p d => cellBelow Config.palDepth p d
  | _ => none

theorem configLoad_of_legal {d : Word} (h : cfgLegal d = true) : configLoad (.cfgWrite d) = some (d.setWidth 32) :=
  if_pos h

theorem wordLoad_of_lt {a : Index} (h : a.toNat < Config.wsDepth) (d : Word) :
    wordLoad (.wordWrite a d) = some (a.toNat, d) := if_pos h

theorem palLoad_of_lt {p : Index} (h : p.toNat < Config.palDepth) (d : Word) :
    palLoad (.palWrite p d) = some (p.toNat, d) := if_pos h

/-- Cells that different indexes name are at different addresses. -/
theorem cellBelow_apart {depth : Nat} {a c : Index} (hac : a ≠ c) (d e : Word) :
    ∀ x ∈ cellBelow depth a d, ∀ y ∈ cellBelow depth c e, x.1 ≠ y.1 := by
  intro x hx y hy hxy
  obtain ⟨-, ⟨⟩⟩ := Option.ite_none_right_eq_some.1 hx
  obtain ⟨-, ⟨⟩⟩ := Option.ite_none_right_eq_some.1 hy
  exact hac (BitVec.eq_of_toNat_eq hxy)

/-- The block after a list of loading commands, when it is not halted. -/
def Block.load (b : Block) (is : List Instr) : Block :=
  { b with
    config := (is.filterMap configLoad).foldl (fun _ v => v) b.config
    ws := b.ws.writeAll (is.filterMap wordLoad)
    pal := b.pal.writeAll (is.filterMap palLoad) }

/-- The machine around that block. -/
def State.loaded (s : State) (is : List Instr) : State := { s with toBlock := s.toBlock.load is }

theorem Block.load_append (b : Block) (is js : List Instr) : b.load (is ++ js) = (b.load is).load js := by
  simp only [Block.load, Store.writeAll, List.filterMap_append, List.foldl_append]

theorem State.loaded_cons (s : State) (i : Instr) (is : List Instr) : s.loaded (i :: is) = (s.loaded [i]).loaded is := by
  rw [State.loaded, ← List.singleton_append, Block.load_append]
  rfl

theorem State.loaded_of_none {i : Instr} (hc : configLoad i = none) (hw : wordLoad i = none) (hp : palLoad i = none)
    (s : State) : s.loaded [i] = s := by
  simp only [State.loaded, Block.load, List.filterMap_cons_none, hc, hw, hp, List.filterMap_nil, Store.writeAll,
    List.foldl_nil]

theorem exec_of_accepted {i : Instr} (hi : Accepted i) {s : State} (hs : s.halted = false) :
    exec i s = .next ((s.loaded [i]).answered .ok 0#64) := by
  cases hi with
  | config h =>
    rw [exec_cfgWrite_of_legal hs h, State.loaded, Block.load, List.filterMap_cons_some (configLoad_of_legal h)]
    rfl
  | word h d =>
    rw [exec_wordWrite_of_lt hs h, State.loaded, Block.load,
      List.filterMap_cons_some (wordLoad_of_lt h d)]
    rfl
  | entry h d =>
    rw [exec_palWrite_of_lt hs h, State.loaded, Block.load,
      List.filterMap_cons_some (palLoad_of_lt h d)]
    rfl

/-- A loading command that is refused leaves the block as it is, and brings nothing. -/
theorem exec_of_loading {i : Instr} (hi : Loading i) {s : State} (hs : s.halted = false) :
    ∃ c, exec i s = .next ((s.loaded [i]).answered c 0#64) := by
  by_cases ha : Accepted i
  · exact ⟨.ok, exec_of_accepted ha hs⟩
  cases hi with
  | config d =>
    have hd : ¬ cfgLegal d = true := fun h => ha (.config h)
    rw [State.loaded_of_none (i := .cfgWrite d) (if_neg hd) rfl rfl]
    exact ⟨_, exec_cfgWrite_of_illegal hs (Bool.eq_false_iff.2 hd)⟩
  | word a d =>
    have hd : ¬ a.toNat < Config.wsDepth := fun h => ha (.word h d)
    rw [State.loaded_of_none (i := .wordWrite a d) rfl (if_neg hd) rfl]
    exact ⟨_, raise_of_range_check hs (Nat.le_of_not_lt hd)⟩
  | entry p d =>
    have hd : ¬ p.toNat < Config.palDepth := fun h => ha (.entry h d)
    rw [State.loaded_of_none (i := .palWrite p d) rfl rfl (if_neg hd)]
    exact ⟨_, raise_of_range_check hs (Nat.le_of_not_lt hd)⟩

/-- Loading commands, whether the block carries them out or refuses some, all answer. -/
theorem execAll_of_loading {is : List Instr} (h : ∀ i ∈ is, Loading i) {s : State} (hs : s.halted = false) :
    ∃ t, execAll is s = .next t ∧ t.toBlock = s.toBlock.load is := by
  induction is generalizing s with
  | nil => exact ⟨s, rfl, rfl⟩
  | cons i is ih =>
    obtain ⟨hi, his⟩ := List.forall_mem_cons.1 h
    obtain ⟨c, hexec⟩ := exec_of_loading hi hs
    obtain ⟨t, hrest, ht⟩ := ih his (s := (s.loaded [i]).answered c 0#64) hs
    refine ⟨t, ?_, ?_⟩
    · rw [execAll, hexec]
      exact hrest
    · exact ht.trans (s.toBlock.load_append [i] is).symm

theorem execAll_of_halted {is : List Instr} (h : ∀ i ∈ is, Loading i) {s : State} (hs : s.halted = true) :
    ∃ t, execAll is s = .next t ∧ t.toBlock = s.toBlock := by
  induction is generalizing s with
  | nil => exact ⟨s, rfl, rfl⟩
  | cons i is ih =>
    obtain ⟨hi, his⟩ := List.forall_mem_cons.1 h
    have hexec : exec i s = .next (s.answered .halted 0#64) := by
      cases hi <;> exact exec_of_halted hs nofun rfl
    obtain ⟨t, hrest, ht⟩ := ih his (s := s.answered .halted 0#64) hs
    refine ⟨t, ?_, ht⟩
    rw [execAll, hexec]
    exact hrest

/-- Two loading commands that the block carries out; the second answers as the first did. -/
theorem execAll_pair_of_accepted {i j : Instr} (hi : Accepted i) (hj : Accepted j) {s : State} (hs : s.halted = false) :
    execAll [i, j] s = .next ((s.loaded [i, j]).answered .ok 0#64) := by
  rw [execAll, exec_of_accepted hi hs]
  simp only [execAll, exec_of_accepted hj (s := (s.loaded [i]).answered .ok 0#64) hs]
  rw [s.loaded_cons i [j]]
  rfl

/-- CONFIG, each word and each entry are named once at most. -/
structure LoadsOnce (is : List Instr) : Prop where
  config : (is.filterMap configLoad).length ≤ 1
  words : ((is.filterMap wordLoad).map Prod.fst).Nodup
  entries : ((is.filterMap palLoad).map Prod.fst).Nodup

theorem loadsOnce_pair {i j : Instr} (hc : configLoad i = none ∨ configLoad j = none)
    (hw : ∀ c ∈ wordLoad i, ∀ c' ∈ wordLoad j, c.1 ≠ c'.1) (hp : ∀ c ∈ palLoad i, ∀ c' ∈ palLoad j, c.1 ≠ c'.1) :
    LoadsOnce [i, j] := by
  have hfew : ([i, j].filterMap configLoad).length < [i, j].length :=
    List.length_filterMap_lt_length_iff_exists.2 (hc.elim (fun h => ⟨i, by simp, h⟩) fun h => ⟨j, by simp, h⟩)
  exact ⟨Nat.le_of_lt_succ hfew, List.pairwise_map.2 (List.pairwise_filterMap.2 (List.pairwise_pair.2 hw)),
    List.pairwise_map.2 (List.pairwise_filterMap.2 (List.pairwise_pair.2 hp))⟩

/-- The order of the loading commands does not matter for the final state (43_config_host.md R157). -/
theorem Block.load_perm {b : Block} (hws : b.ws.canonical) (hpal : b.pal.canonical) {is js : List Instr}
    (honce : LoadsOnce is) (hperm : js.Perm is) : b.load js = b.load is := by
  obtain ⟨hconfig, hwords, hentries⟩ := honce
  have hc : js.filterMap configLoad = is.filterMap configLoad := by
    have hp := hperm.filterMap configLoad
    match hcs : is.filterMap configLoad, hconfig with
    | [], _ => exact List.perm_nil.1 (hcs ▸ hp)
    | [_], _ => exact List.perm_singleton.1 (hcs ▸ hp)
  rw [Block.load, Block.load, hc, Store.writeAll_perm hws hwords (hperm.filterMap _),
    Store.writeAll_perm hpal hentries (hperm.filterMap _)]

/-- Two loading commands in either order. -/
theorem Inv.execAll_pair_comm {s : State} (hinv : Inv s) (hs : s.halted = false) {i j : Instr} (hi : Accepted i)
    (hj : Accepted j) (honce : LoadsOnce [i, j]) :
    ∃ t, execAll [i, j] s = .next t ∧ execAll [j, i] s = .next t := by
  obtain ⟨hws, hpal, -⟩ := hinv.memory
  refine ⟨_, execAll_pair_of_accepted hi hj hs, ?_⟩
  rw [execAll_pair_of_accepted hj hi hs, State.loaded, State.loaded,
    Block.load_perm hws.canonical hpal.canonical honce (List.Perm.swap i j [])]

end Sys2Proof.Machine
end

section
/-! The obligation of 43_config_host.md about pairs of loading commands. -/

namespace Sys2Proof.Machine

/-- Settles O37: each of the commands is carried out, and no pair names a register, word or entry twice. -/
theorem loadingCommandsCommute : Obligations.LoadingCommandsCommute := by
  unfold Obligations.LoadingCommandsCommute
  intro s a c p q d e f hinv hs ha hc hp hq hac hpq hd pair hpair
  have hcomm {i j : Instr} := hinv.execAll_pair_comm hs (i := i) (j := j)
  simp only [List.mem_cons, List.not_mem_nil, or_false] at hpair
  rcases hpair with rfl | rfl | rfl | rfl | rfl
  · exact hcomm (.config hd) (.word ha e) (loadsOnce_pair (.inr rfl) nofun fun _ _ => nofun)
  · exact hcomm (.config hd) (.entry hp e) (loadsOnce_pair (.inr rfl) nofun nofun)
  · exact hcomm (.word ha e) (.entry hp f) (loadsOnce_pair (.inr rfl) (fun _ _ => nofun) nofun)
  · exact hcomm (.word ha e) (.word hc f) (loadsOnce_pair (.inr rfl) (cellBelow_apart hac e f) nofun)
  · exact hcomm (.entry hp e) (.entry hq f) (loadsOnce_pair (.inr rfl) nofun (cellBelow_apart hpq e f))

end Sys2Proof.Machine
end

section
/-! SUPPORT. The list of commands of `from_parts` (43_config_host.md R157): what it brings for each part of the block. -/

namespace Sys2Proof.Machine

/-- The words `ds` with their addresses, from `k` on. -/
def cellsFrom (k : Nat) (ds : List Word) : List (Nat × Word) := (ds.zipIdx k).map Prod.swap

/-- A write by `f` for each cell. -/
def writesOf (f : Index → Word → Instr) (cells : List (Nat × Word)) : List Instr :=
  cells.map fun c => f (BitVec.ofNat 16 c.1) c.2

theorem keys_cellsFrom (k : Nat) (ds : List Word) : (cellsFrom k ds).map Prod.fst = List.range' k ds.length := by
  rw [cellsFrom, List.map_map, ← List.zipIdx_map_snd]
  rfl

theorem nodup_keys_cellsFrom (k : Nat) (ds : List Word) : ((cellsFrom k ds).map Prod.fst).Nodup :=
  keys_cellsFrom k ds ▸ List.nodup_range' 1

theorem mem_cellsFrom {ds : List Word} {a : Nat} {d : Word} : (a, d) ∈ cellsFrom 0 ds ↔ ds[a]? = some d := by
  rw [← List.mk_mem_zipIdx_iff_getElem?, cellsFrom]
  exact List.mem_map_of_injective (a := (d, a)) Prod.swap_injective

theorem lt_of_mem_cellsFrom {ds : List Word} {c : Nat × Word} (h : c ∈ cellsFrom 0 ds) : c.1 < ds.length := by
  obtain ⟨hlt, -⟩ := List.getElem?_eq_some_iff.1 (mem_cellsFrom.1 h)
  exact hlt

/-- The words given are stored, and the words beyond them are as before. -/
theorem Store.read_writeAll_cellsFrom {st : Store} (h : st.canonical) (ds : List Word) (a : Nat) :
    (st.writeAll (cellsFrom 0 ds)).read a = ds[a]?.getD (st.read a) := by
  cases hd : ds[a]? with
  | some d => exact Store.read_writeAll_of_mem h (nodup_keys_cellsFrom 0 ds) (mem_cellsFrom.2 hd)
  | none =>
    refine Store.read_writeAll_of_not_mem h ?_
    rw [keys_cellsFrom, List.mem_range'_1]
    have := List.getElem?_eq_none_iff.1 hd
    omega

theorem Store.map_read_writeAll_cellsFrom {st : Store} (h : st.canonical) {ds : List Word} {n : Nat} (hn : n ≤ ds.length) :
    (List.range n).map (st.writeAll (cellsFrom 0 ds)).read = ds.take n := by
  refine List.ext_getElem (by simp [hn]) fun a ha _ => ?_
  have hlt : a < ds.length := by
    rw [List.length_map, List.length_range] at ha
    omega
  simp [Store.read_writeAll_cellsFrom h, hlt]

theorem wordWrites_eq (k : Nat) (ds : List Word) : wordWrites k ds = writesOf .wordWrite (cellsFrom k ds) := by
  induction ds generalizing k with
  | nil => rfl
  | cons d ds ih =>
    rw [wordWrites, ih]
    rfl

theorem palWrites_eq (k : Nat) (ds : List Word) : palWrites k ds = writesOf .palWrite (cellsFrom k ds) := by
  induction ds generalizing k with
  | nil => rfl
  | cons d ds ih =>
    rw [palWrites, ih]
    rfl

theorem fromParts_eq (b : BitVec 8) (words : List Word) (palette : Option (List Word)) :
    fromParts b words palette = .cfgWrite (partsImage b palette) ::
      (writesOf .wordWrite (cellsFrom 0 (words.take Config.wsDepth)) ++
        writesOf .palWrite (cellsFrom 0 (paletteEntries palette))) := by
  rw [fromParts, wordWrites_eq, palWrites_eq]

theorem filterMap_writesOf {β : Type} (g : Instr → Option β) (f : Index → Word → Instr) (cells : List (Nat × Word)) :
    (writesOf f cells).filterMap g = cells.filterMap fun c => g (f (BitVec.ofNat 16 c.1) c.2) :=
  List.filterMap_map

theorem filterMap_writesOf_eq_nil {β : Type} {g : Instr → Option β} {f : Index → Word → Instr}
    (h : ∀ a d, g (f a d) = none) (cells : List (Nat × Word)) : (writesOf f cells).filterMap g = [] := by
  rw [filterMap_writesOf]
  exact List.filterMap_eq_nil_iff.2 fun _ _ => h _ _

/-- Of cells that 16 bits of `IDX` can name, a memory takes those that it has. -/
theorem filterMap_cellBelow (depth : Nat) {cells : List (Nat × Word)} (h : ∀ c ∈ cells, c.1 < 2 ^ 16) :
    (cells.filterMap fun c => cellBelow depth (BitVec.ofNat 16 c.1) c.2) = cells.filter fun c => c.1 < depth := by
  rw [← List.filterMap_eq_filter]
  refine List.filterMap_congr fun c hc => ?_
  have hidx : (BitVec.ofNat 16 c.1).toNat = c.1 := Nat.mod_eq_of_lt (h c hc)
  simp [cellBelow, hidx, Option.guard]

section FromParts

variable (b : BitVec 8) (words : List Word) (palette : Option (List Word))

theorem loading_of_mem_fromParts : ∀ i ∈ fromParts b words palette, Loading i := by
  intro i hi
  rw [fromParts_eq] at hi
  rcases List.mem_cons.1 hi with rfl | hi
  · exact .config _
  rcases List.mem_append.1 hi with hi | hi
  · obtain ⟨c, -, rfl⟩ := List.mem_map.1 hi
    exact .word _ _
  · obtain ⟨c, -, rfl⟩ := List.mem_map.1 hi
    exact .entry _ _

theorem configLoads_fromParts :
    (fromParts b words palette).filterMap configLoad = (configLoad (.cfgWrite (partsImage b palette))).toList := by
  rw [fromParts_eq, List.filterMap_cons, List.filterMap_append, filterMap_writesOf_eq_nil (fun _ _ => rfl),
    filterMap_writesOf_eq_nil (fun _ _ => rfl)]
  cases configLoad (.cfgWrite (partsImage b palette)) <;> rfl

/-- Every word `from_parts` writes exists. -/
theorem wordLoads_fromParts :
    (fromParts b words palette).filterMap wordLoad = cellsFrom 0 (words.take Config.wsDepth) := by
  have hlt : ∀ c ∈ cellsFrom 0 (words.take Config.wsDepth), c.1 < Config.wsDepth := fun c hc =>
    Nat.lt_of_lt_of_le (lt_of_mem_cellsFrom hc) (List.length_take_le _ _)
  rw [fromParts_eq, List.filterMap_cons_none rfl, List.filterMap_append, filterMap_writesOf,
    filterMap_writesOf_eq_nil (fun _ _ => rfl), List.append_nil]
  exact (filterMap_cellBelow _ fun c hc => Nat.lt_trans (hlt c hc) (by decide)).trans
    (List.filter_eq_self.2 fun c hc => decide_eq_true (hlt c hc))

theorem palLoads_fromParts :
    (fromParts b words palette).filterMap palLoad =
      (cellsFrom 0 (paletteEntries palette)).filter fun c => c.1 < Config.palDepth := by
  rw [fromParts_eq, List.filterMap_cons_none rfl, List.filterMap_append,
    filterMap_writesOf_eq_nil (f := .wordWrite) (fun _ _ => rfl), List.nil_append, filterMap_writesOf]
  exact filterMap_cellBelow _ fun c hc => Nat.lt_of_lt_of_le (lt_of_mem_cellsFrom hc) (List.length_take_le _ _)

theorem loadsOnce_fromParts : LoadsOnce (fromParts b words palette) := by
  refine ⟨?_, ?_, ?_⟩
  · rw [configLoads_fromParts]
    exact Option.length_toList_le
  · rw [wordLoads_fromParts]
    exact nodup_keys_cellsFrom _ _
  · rw [palLoads_fromParts]
    exact (nodup_keys_cellsFrom _ _).sublist (List.filter_sublist.map _)

variable {b palette} (hlegal : cfgLegal (partsImage b palette) = true)

include hlegal

theorem palette_length_le_of_legal : (palette.getD []).length ≤ 256 := by
  obtain ⟨-, -, -, hsome⟩ := cfgLegal_partsImage_iff.1 hlegal
  cases palette with
  | none => exact Nat.zero_le _
  | some pal =>
    have := hsome pal rfl
    rw [Option.getD_some]
    omega

/-- Parts that the block can represent are loaded whole, but for the words beyond 832. -/
theorem Block.load_fromParts_of_legal (blk : Block) :
    blk.load (fromParts b words palette) =
      { blk with
        config := (partsImage b palette).setWidth 32
        ws := blk.ws.writeAll (cellsFrom 0 (words.take Config.wsDepth))
        pal := blk.pal.writeAll (cellsFrom 0 (palette.getD [])) } := by
  have hlen := palette_length_le_of_legal hlegal
  have hentries : paletteEntries palette = palette.getD [] := List.take_of_length_le (by omega)
  have hexist : ∀ c ∈ cellsFrom 0 (palette.getD []), decide (c.1 < Config.palDepth) = true := fun c hc =>
    decide_eq_true (Nat.lt_of_lt_of_le (lt_of_mem_cellsFrom hc) hlen)
  rw [Block.load, configLoads_fromParts, configLoad_of_legal hlegal, wordLoads_fromParts, palLoads_fromParts, hentries,
    List.filter_eq_self.2 hexist]
  rfl

end FromParts

theorem Inv.of_execAll {is : List Instr} {s t : State} (hs : Inv s) (h : execAll is s = .next t) : Inv t := by
  induction is generalizing s with
  | nil =>
    cases h
    exact hs
  | cons i is ih =>
    cases hi : exec i s with
    | next u =>
      simp only [execAll, hi] at h
      exact ih ((exec_effect hi).inv hs) h
    | fault _ | refused _ =>
      simp only [execAll, hi] at h
      cases h

/-- What the image in CONFIG says. -/
theorem State.fields_of_partsImage {t : State} {b : BitVec 8} {palette : Option (List Word)}
    (hlegal : cfgLegal (partsImage b palette) = true) (ht : t.config = (partsImage b palette).setWidth 32) :
    t.bpv = b.toNat ∧ t.palEn = palette.isSome ∧ t.palLen = (palette.getD []).length := by
  obtain ⟨hbpv, hen, hlen⟩ := t.fields_of_image
  have hle := palette_length_le_of_legal hlegal
  obtain ⟨-, h13, -⟩ := cfgLegal_partsImage_iff.1 hlegal
  have hmin : min (palette.getD []).length 511 < 512 := by omega
  rw [ht, setWidth_setWidth_of_cfgLegal hlegal, partsImage_eq] at hbpv hen hlen
  rw [cfgBpv_cfgImage _ b.isLt hmin] at hbpv
  rw [cfgPalEn_cfgImage _ b.isLt hmin] at hen
  rw [cfgPalLen_cfgImage _ b.isLt hmin] at hlen
  exact ⟨by omega, hen.symm, by omega⟩

end Sys2Proof.Machine
end

section
/-! The obligations of 43_config_host.md about whole loads. -/

namespace Sys2Proof.Machine

/-- Settles O58: in a halted block every command answers HALTED, and in one that is not each register, word and entry is
named once at most, so that the order does not matter (`Block.load_perm`). -/
theorem fromPartsInAnyOrder : Obligations.FromPartsInAnyOrder := by
  unfold Obligations.FromPartsInAnyOrder
  intro s b words palette order hinv hperm
  have hload := loading_of_mem_fromParts b words palette
  have hload' : ∀ i ∈ order, Loading i := fun i hi => hload i (hperm.mem_iff.1 hi)
  cases hs : s.halted with
  | true =>
    obtain ⟨t, ht, htb⟩ := execAll_of_halted hload hs
    obtain ⟨u, hu, hub⟩ := execAll_of_halted hload' hs
    exact ⟨t, u, ht, hu, hub.trans htb.symm⟩
  | false =>
    obtain ⟨t, ht, htb⟩ := execAll_of_loading hload hs
    obtain ⟨u, hu, hub⟩ := execAll_of_loading hload' hs
    obtain ⟨hws, hpal, -⟩ := hinv.memory
    have hblock := Block.load_perm hws.canonical hpal.canonical (loadsOnce_fromParts b words palette) hperm
    exact ⟨t, u, ht, hu, hub.trans (hblock.trans htb.symm)⟩

/-- Settles O35: the commands end in the block `Block.load_fromParts_of_legal` gives, which meets the invariant, so that the
readers answer from it. -/
theorem fromPartsLoadsTheArray : Obligations.FromPartsLoadsTheArray := by
  unfold Obligations.FromPartsLoadsTheArray
  intro s b words palette hinv hs h4 h13 hparts
  have hlegal : cfgLegal (partsImage b palette) = true := by
    refine cfgLegal_partsImage_iff.2 ⟨h4, h13, ?_, ?_⟩
    · rintro rfl
      exact hparts
    · rintro pal rfl
      exact hparts
  obtain ⟨t, ht, htb⟩ := execAll_of_loading (loading_of_mem_fromParts b words palette) hs
  rw [Block.load_fromParts_of_legal words hlegal] at htb
  obtain ⟨hws, hpal, -⟩ := hinv.memory
  have htws : t.ws = s.ws.writeAll (cellsFrom 0 (words.take Config.wsDepth)) := by rw [htb]
  have htpal : t.pal = s.pal.writeAll (cellsFrom 0 (palette.getD [])) := by rw [htb]
  have hts : t.halted = false := by
    rw [State.halted, htb]
    exact hs
  obtain ⟨hbpv, hen, hlen⟩ := State.fields_of_partsImage (t := t) hlegal (by rw [htb])
  obtain ⟨hwidth, hpalette, hwords⟩ := (readersAnswerFromTheCommands t (hinv.of_execAll ht)).2 hts
  refine ⟨t, ht, hbpv ▸ hwidth, ?_, fun w => ?_, fun hlong => ?_, fun p hp => ?_, by rw [htb], by rw [htb]⟩
  · rw [hpalette, hen, hlen, htpal, Store.map_read_writeAll_cellsFrom hpal.canonical le_rfl, List.take_length]
    cases palette <;> rfl
  · rw [htws, Store.read_writeAll_cellsFrom hws.canonical]
    by_cases hw : w < min words.length 832
    · have hlt : w < words.length ∧ w < 832 := by omega
      simp [hlt]
    · rw [if_neg hw, List.getElem?_eq_none (by rw [List.length_take, wsDepth_eq]; omega), Option.getD_none]
  · have hfit : 64 * b.toNat ≤ (words.take Config.wsDepth).length := by
      rw [List.length_take, wsDepth_eq]
      omega
    have hmin : min (64 * b.toNat) Config.wsDepth = 64 * b.toNat := by
      rw [wsDepth_eq]
      omega
    rw [hwords, hbpv, htws, Store.map_read_writeAll_cellsFrom hws.canonical hfit, List.take_take, hmin]
  · rw [htpal, Store.read_writeAll_cellsFrom hpal.canonical, List.getElem?_eq_none hp, Option.getD_none]

end Sys2Proof.Machine
end

section
/-! SUPPORT. What a command may answer: OK, a non-fatal error, or a fatal error (60_exceptions.md R180-R183); what raising a
fatal error does in a halted block; and the one answer of every command there (R184). -/

namespace Sys2Proof.Machine

/-- A fatal error in a halted block leaves STATUS (60_exceptions.md R183). -/
theorem State.raiseFatal_halted {s : State} (h : s.halted = true) (c : StatusCode) (idx : Index) :
    s.raiseFatal c idx = .next (s.answered c 0#64) := by
  rw [State.raiseFatal, Status.latch_halted (show s.status.fatal = true from h)]
  rfl

/-- The outcomes of a command, by the kind of its answer: unlike `Effect` and `Writes`, it ties the status that is answered
to the command's own index. -/
inductive Reply (s : State) (i : Instr) : Host.Outcome State Fault Refusal → Prop where
  | done (u : State) (d : Word) : Reply s i (.next (u.answered .ok d))
  | error (c : StatusCode) (hc : c.fatal = false) : Reply s i (.next (s.answered c 0#64))
  | fatal (c : StatusCode) (hc : c.fatal = true) (hs : s.halted = false) (hi : i.index.toNat < Config.nElem) :
    Reply s i (.next ((s.setStatus ⟨true, c.code, i.index⟩).answered c 0#64))
  /-- Only in a state with an illegal CONFIG (`exec_fault`). -/
  | absent (f : Fault) : Reply s i (.fault f)

theorem reply_ite {s : State} {i : Instr} {P : Prop} [Decidable P] {a b : Host.Outcome State Fault Refusal}
    (ha : P → Reply s i a) (hb : ¬ P → Reply s i b) : Reply s i (if P then a else b) := by
  split
  · exact ha ‹_›
  · exact hb ‹_›

/-- A command raises a fatal error only after it has passed the halted and the index check. -/
theorem reply_raiseFatal {s : State} {i : Instr} {c : StatusCode} (hc : c.fatal = true) (hs : ¬ s.halted = true)
    (hi : ¬ Config.nElem ≤ i.index.toNat) : Reply s i (s.raiseFatal c i.index) := by
  have hrun : s.halted = false := Bool.eq_false_iff.2 hs
  rw [State.raiseFatal_running hrun]
  exact .fatal c hc hrun (Nat.lt_of_not_le hi)

/-- The inversion of `exec` by the kind of its answer. -/
theorem exec_reply (i : Instr) (s : State) : Reply s i (exec i s) := by
  cases i with
  | getRaw idx =>
    exact reply_ite (fun _ => .error _ rfl) fun _ => reply_ite (fun _ => .error _ rfl) fun _ =>
      reply_ite (fun _ => .absent _) fun _ => .done _ _
  | setRaw idx v =>
    exact reply_ite (fun _ => .error _ rfl) fun hs => reply_ite (fun _ => .error _ rfl) fun hi =>
      reply_ite (fun _ => reply_raiseFatal (i := .setRaw idx v) rfl hs hi) fun _ =>
        reply_ite (fun _ => .absent _) fun _ => .done _ _
  | get idx =>
    exact reply_ite (fun _ => .error _ rfl) fun hs => reply_ite (fun _ => .error _ rfl) fun hi =>
      reply_ite (fun _ => .absent _) fun _ => reply_ite (fun _ => .done _ _) fun _ =>
        reply_ite (fun _ => reply_raiseFatal (i := .get idx) rfl hs hi) fun _ =>
          reply_ite (fun _ => .absent _) fun _ => .done _ _
  | wordRead _ | wordWrite _ _ | palRead _ | palWrite _ _ | cfgWrite _ =>
    exact reply_ite (fun _ => .error _ rfl) fun _ => reply_ite (fun _ => .error _ rfl) fun _ => .done _ _
  | cfgRead | initEmpty => exact reply_ite (fun _ => .error _ rfl) fun _ => .done _ _
  | statusRead => exact .done _ _
  | lightGet _ | lwordRead _ | lwordWrite _ _ =>
    exact reply_ite (fun _ => .error _ rfl) fun _ => reply_ite (fun _ => .error _ rfl) fun _ =>
      reply_ite (fun _ => .error _ rfl) fun _ => .done _ _

/-- An answer is OK, or an error with data 0: a non-fatal one changes nothing but the port, and a fatal one latches STATUS
in a block that was not halted. -/
theorem exec_answer_cases {i : Instr} {s t : State} {c : StatusCode} {d : Word} (h : exec i s = .next t)
    (hp : t.port = .busy (some ⟨c, d⟩)) :
    c = .ok ∨ (c.fatal = false ∧ d = 0#64 ∧ t = s.answered c 0#64) ∨
      (c.fatal = true ∧ d = 0#64 ∧ s.halted = false ∧ i.index.toNat < Config.nElem ∧
        t = (s.setStatus ⟨true, c.code, i.index⟩).answered c 0#64) := by
  have hreply := exec_reply i s
  rw [h] at hreply
  cases hreply with
  | done u d' =>
    cases hp
    exact .inl rfl
  | error c' hc =>
    cases hp
    exact .inr (.inl ⟨hc, rfl, rfl⟩)
  | fatal c' hc hs hi =>
    cases hp
    exact .inr (.inr ⟨hc, rfl, hs, hi, rfl⟩)

/-- The check for the light store, passed. -/
theorem not_noLight_of_needsLight {hasLight : Bool} {i : Instr} (hn : i.needsLight = true)
    (hw : i.wellFormed hasLight = true) : ¬ hasLight = false :=
  ne_false_of_eq_true (hasLight_of_needsLight hn hw)

/-- What a legal command answers in the halted state (60_exceptions.md R184). -/
def State.haltedAnswer (s : State) (i : Instr) : Response :=
  if i = .statusRead then ⟨.ok, s.statusReg⟩ else ⟨.halted, 0#64⟩

/-- In a halted block a command that exists there only answers. -/
theorem exec_of_halted_of_wellFormed {i : Instr} {s : State} (hs : s.halted = true)
    (hw : i.wellFormed s.params.hasLight = true) : exec i s = .next (s.setPort (.busy (some (s.haltedAnswer i)))) := by
  by_cases hi : i = .statusRead
  · subst hi
    rfl
  rw [State.haltedAnswer, if_neg hi]
  cases hn : i.needsLight with
  | false => exact exec_of_halted hs hi hn
  | true =>
    cases i with
    | lightGet _ | lwordRead _ | lwordWrite _ _ => exact (if_neg (not_noLight_of_needsLight hn hw)).trans (if_pos hs)
    | _ => cases hn

theorem accept_of_decode_error {s : State} {c : Command} {why : Illegal} (h : decode s.params.hasLight c = .error why) :
    s.accept c = .next (s.answered .illegalCommand 0#64) := by
  rw [State.accept, h, State.raise_eq]

theorem accept_of_halted {s : State} (hs : s.halted = true) {c : Command} {i : Instr}
    (h : decode s.params.hasLight c = .ok i) : s.accept c = .next (s.setPort (.busy (some (s.haltedAnswer i)))) :=
  (accept_of_decode h).trans (exec_of_halted_of_wellFormed hs (decodedAs_of_decode h).wellFormed)

/-- No edge without reset changes a halted block. -/
theorem EdgeCase.sameBlock_of_halted {s t : State} {e : Edge} (h : EdgeCase s e t) (hr : e.rst = false)
    (hs : s.halted = true) : State.sameBlock t s := by
  cases h with
  | reset hrst => exact absurd (hr.symm.trans hrst) Bool.false_ne_true
  | command c i _ _ _ hd ht =>
    have hw : i.wellFormed (s.setOffered none).params.hasLight = true := (decodedAs_of_decode hd).wellFormed
    rw [exec_of_halted_of_wellFormed (s := s.setOffered none) hs hw] at ht
    cases ht
    exact State.sameBlock_iff.2 ⟨rfl, rfl⟩
  | illegal _ _ _ _ _ _ | wait _ _ _ _ | taken _ _ _ _ => exact State.sameBlock_iff.2 ⟨rfl, rfl⟩

end Sys2Proof.Machine
end

section
/-! SUPPORT. The order of checks of 60_exceptions.md R186 on a decoded command, against the command word and against
`exec`. -/

namespace Sys2Proof.Machine

/-- The checks on a command's operands and on the data stored for it, in the order of 60_exceptions.md R186. -/
def State.operandFailure (s : State) : Instr → StatusCode
  | .getRaw idx | .lightGet idx => if Config.nElem ≤ idx.toNat then .indexOutOfRange else .ok
  | .setRaw idx v =>
    if Config.nElem ≤ idx.toNat then .indexOutOfRange else if 2 ^ s.bpv ≤ v.toNat then .invalidRawValue else .ok
  | .get idx =>
    if Config.nElem ≤ idx.toNat then .indexOutOfRange
    else if s.palEn = false then .ok
    else if s.palLen ≤ (getRaw s.bpv s.ws idx.toNat).toNat then .unmappedRawCode else .ok
  | .wordRead idx | .wordWrite idx _ => if Config.wsDepth ≤ idx.toNat then .addrOutOfRange else .ok
  | .palRead idx | .palWrite idx _ => if Config.palDepth ≤ idx.toNat then .addrOutOfRange else .ok
  | .lwordRead idx | .lwordWrite idx _ => if Config.lsDepth ≤ idx.toNat then .addrOutOfRange else .ok
  | .cfgWrite d => if cfgLegal d = false then .invalidConfig else .ok
  | .cfgRead | .initEmpty | .statusRead => .ok

/-- The status of a legal command: the halted check comes first, and STATUS_READ has none to fail. -/
def State.failure (s : State) : Instr → StatusCode
  | .statusRead => .ok
  | i => if s.halted then .halted else s.operandFailure i

theorem firstFailing_cons (failed : Bool) (code : StatusCode) (checks : List (Bool × StatusCode)) :
    (((failed, code) :: checks).find? (·.1)).elim StatusCode.ok (·.2) =
      if failed then code else (checks.find? (·.1)).elim .ok (·.2) := by
  cases failed <;> rfl

theorem firstFailure_of_illegalWord {s : State} {c : Command} (h : illegalWord s.params.hasLight c = true) :
    s.firstFailure c = .illegalCommand := by
  rw [State.firstFailure, State.checks, firstFailing_cons, if_pos h]

/-- A command that takes DATA keeps it when it is decoded (30_encoding.md R72). -/
theorem DecodedAs.operand_eq_data {hasLight : Bool} {c : Command} {i : Instr} (h : DecodedAs hasLight c i)
    (hop : opNumber c ∈ [0x2, 0x6, 0x8, 0xA, 0xE]) : i.operand = c.data :=
  h.operand.resolve_right fun hno => hno.2 hop

/-- The checks on the fields of a legal word are those on the command it decodes to. -/
theorem firstFailure_of_decodedAs {s : State} {c : Command} {i : Instr} (hlegal : illegalWord s.params.hasLight c = false)
    (h : DecodedAs s.params.hasLight c i) : s.firstFailure c = s.failure i := by
  have hdata := h.operand_eq_data
  rw [← h.opcode] at hdata
  rw [State.firstFailure, State.checks, hlegal]
  simp only [firstFailing_cons, Bool.and_eq_true, decide_eq_true_eq, ← h.opcode, ← h.index]
  cases i with
  | setRaw _ d | wordWrite _ d | palWrite _ d | cfgWrite d | lwordWrite _ d =>
    obtain rfl : d = c.data := hdata (of_decide_eq_true rfl)
    simp [State.failure, State.operandFailure, Instr.opcode, Instr.index]
  | get _ => cases he : s.palEn <;> simp [State.failure, State.operandFailure, Instr.opcode, Instr.index, he]
  | _ => simp [State.failure, State.operandFailure, Instr.opcode, Instr.index]

/-- The command completes with one response, of this status. -/
def Reports (o : Host.Outcome State Fault Refusal) (code : StatusCode) : Prop :=
  ∃ (t : State) (d : Word), o = .next t ∧ t.port = .busy (some ⟨code, d⟩)

theorem reports_answered (u : State) (code : StatusCode) (d : Word) : Reports (.next (u.answered code d)) code :=
  ⟨_, d, rfl, rfl⟩

section ReportsIte

variable {P : Prop} [Decidable P] {a b : Host.Outcome State Fault Refusal} {code code' : StatusCode}

/-- A check that the command makes and the rule names. -/
theorem reports_ite (ha : Reports a code) (hb : ¬ P → Reports b code') :
    Reports (if P then a else b) (if P then code else code') := by
  split
  · exact ha
  · exact hb ‹_›

/-- A check that cannot fail. -/
theorem reports_of_not (h : ¬ P) (hb : Reports b code) : Reports (if P then a else b) code := by
  rwa [if_neg h]

end ReportsIte

/-- A command that exists on the block reports the first check that fails; the two faults need an illegal CONFIG. -/
theorem Inv.exec_reports {s : State} (hs : Inv s) {i : Instr} (hw : i.wellFormed s.params.hasLight = true) :
    Reports (exec i s) (s.failure i) := by
  have answer := reports_answered
  have exist {idx : Index} (hi : ¬ Config.nElem ≤ idx.toNat) : ¬ s.elementExists idx.toNat = false := by
    rw [State.elementExists_of_legal hs.config (Nat.lt_of_not_le hi)]
    exact (nomatch ·)
  cases i with
  | getRaw idx =>
    exact reports_ite (answer _ _ _) fun _ => reports_ite (answer _ _ _) fun hi =>
      reports_of_not (exist hi) (answer _ _ _)
  | setRaw idx v =>
    exact reports_ite (answer _ _ _) fun _ => reports_ite (answer _ _ _) fun hi =>
      reports_ite (answer _ _ _) fun _ => reports_of_not (exist hi) (answer _ _ _)
  | get idx =>
    exact reports_ite (answer _ _ _) fun _ => reports_ite (answer _ _ _) fun hi =>
      reports_of_not (exist hi) <| reports_ite (answer _ _ _) fun _ => reports_ite (answer _ _ _) fun hlen =>
        reports_of_not (Nat.not_le.2 (Nat.lt_of_lt_of_le (Nat.lt_of_not_le hlen) (State.palLen_le hs.config)))
          (answer _ _ _)
  | wordRead _ | wordWrite _ _ | palRead _ | palWrite _ _ | cfgWrite _ =>
    exact reports_ite (answer _ _ _) fun _ => reports_ite (answer _ _ _) fun _ => answer _ _ _
  | cfgRead | initEmpty => exact reports_ite (answer _ _ _) fun _ => answer _ _ _
  | statusRead => exact answer _ _ _
  | lightGet _ | lwordRead _ | lwordWrite _ _ =>
    exact reports_of_not (not_noLight_of_needsLight rfl hw) <| reports_ite (answer _ _ _) fun _ =>
      reports_ite (answer _ _ _) fun _ => answer _ _ _

end Sys2Proof.Machine
end

section
/-! The obligations of 60_exceptions.md. -/

namespace Sys2Proof.Machine

/-- Settles O38: an illegal word fails the first check, and for a legal one both the rule on the word and `exec` are
`State.failure` of the command it decodes to. -/
theorem statusIsTheFirstFailingCheck : Obligations.StatusIsTheFirstFailingCheck := by
  unfold Obligations.StatusIsTheFirstFailingCheck
  intro s c hs
  rcases decode_cases s.params.hasLight c with ⟨hillegal, -⟩ | ⟨hlegal, i, hdecode, hdecoded⟩
  · rw [firstFailure_of_illegalWord hillegal, accept_of_illegalWord hillegal]
    exact reports_answered _ _ _
  · rw [firstFailure_of_decodedAs hlegal hdecoded, accept_of_decode hdecode]
    exact hs.exec_reports hdecoded.wellFormed

/-- Settles O40: of the kinds of answer (`exec_answer_cases`), OK and the fatal errors are not in the list. -/
theorem nonFatalErrorsChangeNothing : Obligations.NonFatalErrorsChangeNothing := by
  unfold Obligations.NonFatalErrorsChangeNothing
  intro i s t c d h hp hc
  rcases exec_answer_cases h hp with rfl | ⟨-, hd, ht⟩ | ⟨hfatal, -⟩
  · exact absurd hc (by decide)
  · exact ⟨hd, ht⟩
  · cases c with
    | invalidRawValue | unmappedRawCode => exact absurd hc (by decide)
    | _ => cases hfatal

/-- Settles O41: the two branches of raise_fatal, and that a command answers a fatal error only in a block that is not
halted. -/
theorem raiseFatalKeepsTheFirstError : Obligations.RaiseFatalKeepsTheFirstError := by
  unfold Obligations.RaiseFatalKeepsTheFirstError
  intro s code idx
  refine ⟨fun h => State.raiseFatal_running h code idx, fun h => State.raiseFatal_halted h code idx,
    fun hs i t c d h hp => ?_⟩
  rcases exec_answer_cases h hp with rfl | ⟨hc, -⟩ | ⟨-, -, hrun, -⟩
  · rfl
  · exact hc
  · exact absurd (hrun.symm.trans hs) Bool.false_ne_true

/-- Settles O42: neither OK nor a non-fatal error has one of the two codes. -/
theorem fatalErrorsLatchStatusOnly : Obligations.FatalErrorsLatchStatusOnly := by
  unfold Obligations.FatalErrorsLatchStatusOnly
  intro i s t c d h hp hc
  have hfatal : c.fatal = true := by rcases hc with rfl | rfl <;> rfl
  rcases exec_answer_cases h hp with rfl | ⟨hno, -⟩ | ⟨-, hd, hs, hi, ht⟩
  · cases hfatal
  · exact absurd (hno.symm.trans hfatal) Bool.false_ne_true
  · exact ⟨hs, hd, hi, ht⟩

/-- Settles O43: the answers by `accept_of_decode_error` and `accept_of_halted`; of the cases of a clock edge only the reset
changes the block. -/
theorem haltedBlockOnlyAnswers : Obligations.HaltedBlockOnlyAnswers := by
  unfold Obligations.HaltedBlockOnlyAnswers
  intro s hs
  refine ⟨fun c why h => accept_of_decode_error h, fun c i h => accept_of_halted hs h, fun t h => ?_⟩
  have hedge := step_case h
  split <;> rename_i hr
  · cases hedge with
    | reset _ => rfl
    | command _ _ hno _ _ _ _ | illegal _ _ hno _ _ _ | wait _ _ hno _ | taken _ hno _ _ =>
      exact absurd (hno.symm.trans hr) Bool.false_ne_true
  · have hrun : (s.setInputs s.inputs.tail).halted = true := hs
    exact hedge.sameBlock_of_halted (Bool.eq_false_iff.2 hr) hrun

end Sys2Proof.Machine
end

section
/-! SUPPORT. What a later command sees of a command before it (70_reset_and_hazards.md R220-R222), and the edge at which the
block becomes ready after reset (R212). -/

namespace Sys2Proof.Machine

/-- What GetRaw reads of any element after SetRaw (40_codec.md R98). -/
theorem getRaw_setRaw {b : Nat} (hb : 1 ≤ b) (hb' : b ≤ 64) {ws : Store} (h : ws.canonical) {v : Word}
    (hv : v.toNat < 2 ^ b) (i j : Nat) :
    getRaw b (setRaw b ws i v) j = if j = i then v else getRaw b ws j := by
  split
  · subst j
    exact getRaw_setRaw_same hb hb' h hv i
  · rename_i hji
    exact getRaw_setRaw_other hb hb' h hv (Ne.symm hji)

/-- The register that takes a legal image has the fields of the image. -/
theorem State.fields_of_cfgWrite {t : State} {d : Word} (hd : cfgLegal d = true) (ht : t.config = d.setWidth 32) :
    cfgLegal (t.config.setWidth 64) = true ∧ t.bpv = cfgBpv d ∧ t.palEn = cfgPalEn d ∧ t.palLen = cfgPalLen d := by
  have himage : t.config.setWidth 64 = d := by rw [ht, setWidth_setWidth_of_cfgLegal hd]
  obtain ⟨hbpv, hen, hlen⟩ := t.fields_of_image
  rw [himage] at hbpv hen hlen
  exact ⟨himage ▸ hd, hbpv.symm, hen.symm, hlen.symm⟩

/-- What GET_RAW answers of an element in range is the code that GetRaw reads. -/
theorem getRaw_eq_of_answered {s : State} {idx : Index} {raw : Word} (hs : s.halted = false)
    (hi : idx.toNat < Config.nElem) (hc : cfgLegal (s.config.setWidth 64) = true)
    (h : exec (.getRaw idx) s = .next (s.answered .ok raw)) : getRaw s.bpv s.ws idx.toNat = raw := by
  rw [exec_getRaw_of_legal hs hi hc] at h
  injection h with hanswered
  simpa using congrArg State.port hanswered

/-- GET of an element whose raw code is known. -/
theorem exec_get_of_mapped_code {s : State} {idx : Index} {code : Nat} (hs : s.halted = false)
    (hi : idx.toNat < Config.nElem) (hc : cfgLegal (s.config.setWidth 64) = true) (he : s.palEn = true)
    (hcode : (getRaw s.bpv s.ws idx.toNat).toNat = code) (hlen : code < s.palLen) :
    exec (.get idx) s = .next (s.answered .ok (s.pal.read code)) := by
  subst hcode
  exact exec_get_of_mapped hs hi hc he hlen

theorem step_starting_finish {s : State} {e : Edge} {rest : List Edge} (hp : s.port = .busy none)
    (hi : s.inputs = e :: rest) (hr : e.rst = false) (hf : e.finish = true) (hh : s.held e = true) :
    step s = .next (((s.setInputs rest).setOffered e.offer).setPort .ready) := by
  rw [step_of_inputs hi, State.edge_starting (s := s.setInputs rest) hr hh hp, if_pos hf]

end Sys2Proof.Machine
end

section
/-! The obligations of 70_reset_and_hazards.md. -/

namespace Sys2Proof.Machine

/-- Settles O16: SET_RAW moves no field that GET_RAW checks, and on the new Word Store GetRaw is `getRaw_setRaw`. -/
theorem getRawSeesTheSetRawBefore : Obligations.GetRawSeesTheSetRawBefore := by
  unfold Obligations.GetRawSeesTheSetRawBefore
  intro s idx jdx v hinv hs hi hj hv
  obtain ⟨hb4, hb13⟩ := State.bpv_bounds hinv.config
  obtain ⟨hws, -, -⟩ := hinv.memory
  have hcode : getRaw s.bpv (setRaw s.bpv s.ws idx.toNat v) jdx.toNat =
      if jdx = idx then v else getRaw s.bpv s.ws jdx.toNat :=
    (getRaw_setRaw (by omega) (by omega) hws.canonical hv _ _).trans (if_congr BitVec.toNat_inj rfl rfl)
  refine ⟨_, _, exec_setRaw_of_legal hs hi hinv.config hv, exec_getRaw_of_legal hs hj hinv.config, ?_⟩
  rw [← hcode]
  exact exec_getRaw_of_legal (s := (s.setWs (setRaw s.bpv s.ws idx.toNat v)).answered .ok 0#64) hs hj hinv.config

/-- Settles O20: CFG_WRITE leaves the Word Store as it is and gives GET_RAW the width of the image. -/
theorem configWriteReinterpretsTheSameBits : Obligations.ConfigWriteReinterpretsTheSameBits := by
  unfold Obligations.ConfigWriteReinterpretsTheSameBits
  intro s d idx hs hd hi
  obtain ⟨hc, hbpv, -, -⟩ :=
    State.fields_of_cfgWrite (t := (s.setConfig (d.setWidth 32)).answered .ok 0#64) hd rfl
  obtain ⟨hb4, hb13, -, -⟩ := cfgLegal_bounds hd
  refine ⟨_, _, exec_cfgWrite_of_legal hs hd, exec_getRaw_of_legal hs hi hc, ?_⟩
  rw [hbpv, ← cfgBpv_eq_mod]
  exact getRaw_getLsbD (by omega) (by omega) s.ws idx.toNat

/-- Settles O23: the raw code of the element stays `p`; it is still mapped after PAL_WRITE, and GET reads the table as
written, and it is unmapped after a CFG_WRITE with PAL_LEN at most `p`. -/
theorem paletteChangesActAtOnce : Obligations.PaletteChangesActAtOnce := by
  unfold Obligations.PaletteChangesActAtOnce
  intro s t idx p d hinv hs hi hen hget hp
  obtain ⟨-, hpal, -⟩ := hinv.memory
  have hcode : (getRaw s.bpv s.ws idx.toNat).toNat = p.toNat := by
    rw [getRaw_eq_of_answered hs hi hinv.config hget, BitVec.toNat_setWidth_of_le (by decide)]
  have hdepth : p.toNat < Config.palDepth := Nat.lt_of_lt_of_le hp (State.palLen_le hinv.config)
  refine ⟨fun hwrite => ?_, fun hd hbpv hen' hlen hwrite => ?_⟩
  · rw [exec_palWrite_of_lt hs hdepth] at hwrite
    cases hwrite
    have hmapped := exec_get_of_mapped_code (s := (s.setPal (s.pal.write p.toNat d)).answered .ok 0#64) hs hi
      hinv.config hen hcode hp
    rw [State.answered_pal, State.setPal_pal, Store.read_write_same hpal.canonical] at hmapped
    exact hmapped
  · rw [exec_cfgWrite_of_legal hs hd] at hwrite
    cases hwrite
    obtain ⟨hc, hbpv', hen'', hlen'⟩ :=
      State.fields_of_cfgWrite (t := (s.setConfig (d.setWidth 32)).answered .ok 0#64) hd rfl
    refine exec_get_of_unmapped hs hi hc (hen''.trans hen') ?_
    rw [hlen', hbpv', hbpv]
    exact hlen.trans_eq hcode.symm

/-- Settles O52: the edges before `e` leave the port busy (`run_of_keeps`), and `e` makes it READY. -/
theorem blockBecomesReadyInTheResetState : Obligations.BlockBecomesReadyInTheResetState := by
  unfold Obligations.BlockBecomesReadyInTheResetState
  intro p es e rest hes hr hf hh
  obtain ⟨o, hrun, hho⟩ := run_of_keeps (u := { State.resetWith p with inputs := es ++ e :: rest })
    (fun x hx => (hes x hx).keeps_busy none) rfl rfl hh
  obtain ⟨hheld, -⟩ := Bool.and_eq_true_iff.1 hho
  exact (run_add hrun 1).trans (run_succ_next (step_starting_finish rfl rfl hr hf hheld))

/-- Settles O51. -/
theorem resetCancelsWhateverIsInProgress : Obligations.ResetCancelsWhateverIsInProgress := by
  unfold Obligations.ResetCancelsWhateverIsInProgress
  intro s e rest hi hr
  refine ⟨?_, rfl, rfl⟩
  rw [step_of_inputs hi, State.edge_of_rst hr]
  rfl

end Sys2Proof.Machine
end
